-- ==== Sys2Proof/Word.lean ====
section
/-! DEFINITION. The word and the byte of the machine (spec 00_scope R9: XLEN = 32, BYTE = 8; R12). -/

namespace Sys2Proof

/-- A `w32` (00_scope R12): every register, bus, ALU operand and memory word. -/
abbrev Word := BitVec 32

/-- A byte (00_scope R9). -/
abbrev Byte := BitVec 8

end Sys2Proof
end

