-- ==== Sys2Proof/Config.lean ====
section
/-! DEFINITION. The implementation parameters of spec 00_scope R9, their defaults and constraints, and the free
values: what the spec says has "no defined value". -/

namespace Sys2Proof

/-- `BYTE_ORDER` (00_scope R9, 20_memory R58). -/
inductive ByteOrder where
  | big
  | little
  deriving DecidableEq, Repr

/-- `FETCH_ADDR_REG` (00_scope R9, 43_memory_ops R193): MAR, or the other admitted value PC. -/
inductive FetchAddrReg where
  | mar
  | pc
  deriving DecidableEq, Repr

/-- The parameters of 00_scope R9 that a configuration chooses. XLEN and BYTE are types; MI_WIDTH is derived;
CS_IMAGE and MEM_IMAGE are launch contents (the fields `cs` and `mem` of State). -/
structure Params where
  nextAddrWidth : Nat
  csCapacity    : Nat
  jamnBit       : Nat
  jamzBit       : Nat
  memWords      : Nat
  byteOrder     : ByteOrder
  fetchAddrReg  : FetchAddrReg
  resetUpc      : Nat
  deriving DecidableEq, Repr

/-- `MI_WIDTH = 25 + NEXT_ADDR_WIDTH` (30_encoding R80, R83). -/
def Params.miWidth (p : Params) : Nat := 25 + p.nextAddrWidth

/-- The constraints of 00_scope R9's table; `RESET_UPC` is a value of µPC, so it has NEXT_ADDR_WIDTH bits
(10_state R30). -/
def Params.wf (p : Params) : Bool :=
  decide (1 ≤ p.csCapacity) && decide (p.csCapacity ≤ 2 ^ p.nextAddrWidth)
    && decide (p.jamnBit < p.nextAddrWidth) && decide (p.jamzBit < p.nextAddrWidth)
    && decide (p.memWords ≤ 2 ^ 31 - 1) && decide (p.resetUpc < 2 ^ p.nextAddrWidth)

/-- The defaults of 00_scope R9. `MEM_WORDS` has no default there; 64 is what the spec's examples use
(DESIGN CHOICE, log 2). -/
def Params.default : Params where
  nextAddrWidth := 9
  csCapacity    := 512
  jamnBit       := 0
  jamzBit       := 0
  memWords      := 64
  byteOrder     := .big
  fetchAddrReg  := .mar
  resetUpc      := 0

/-- FREE VALUE: what a control-store entry that the loader did not set holds, by its index (70_reset_and_hazards
R273, "has no defined value; a model must not assume 0"). No body: nothing can be proved of a value of it. -/
opaque Config.unloadedEntry : Nat → Nat

/-- FREE VALUE: what a byte of memory that neither the loader nor a cycle set holds, by its number 4*word + offset
(70_reset_and_hazards R273, 92_eei_decisions D18, 93_implementation_defined section 4: any value, not 0; log 5). -/
opaque Config.unloadedByte : Nat → Byte

/-- FREE VALUE: the hook's `canContinue` answer where the state lists none, by the counter `hookTick`
(45_execution_cycle R217, 93_implementation_defined section 4: any value). -/
opaque Config.hookAnswer : Nat → Bool

end Sys2Proof
end

