-- ==== Sys2Proof/Syntax.lean ====
section
/-! DEFINITION. The syntax of a micro-instruction (spec 30_encoding R81, R82, R100): its field groups, the decoded
record, and `Instr`, one constructor for each of the 55 rows of spec/opcode_table.json. -/

namespace Sys2Proof

/-- The 11 register names (00_scope R10, 10_state R22), in the order of the B-bus codes (30_encoding R90). -/
inductive Reg where
  | mdr | pc | mbr | mbru | sp | lv | cpp | tos | opc | mar | h
  deriving DecidableEq, Repr

/-- The ten registers a write-mask bit can name, in the order of the bits (30_encoding R91). MBRU is none of them
(40_register_file_and_buses R113). -/
inductive Dest where
  | h | opc | tos | cpp | lv | sp | pc | mdr | mar | mbr
  deriving DecidableEq, Repr

/-- The ALU's four control lines ENA ENB INVA INC (30_encoding R92, 41_alu R150). -/
structure AluCtl where
  ena  : Bool
  enb  : Bool
  inva : Bool
  inc  : Bool
  deriving DecidableEq, Repr

/-- The three legal values of SLL8 SRA1 (30_encoding R93). -/
inductive Shift where
  | pass | sll8 | sra1
  deriving DecidableEq, Repr

/-- The four legal values of WRITE READ FETCH (30_encoding R94). -/
inductive MemOp where
  | idle | read | write | fetch
  deriving DecidableEq, Repr

/-- The four values of JAMN JAMZ (30_encoding R95). -/
inductive Jump where
  | uncond | jamn | jamz | jamnz
  deriving DecidableEq, Repr

/-- The ten write-mask bits C_H .. C_MBR (30_encoding R91); any subset may be set. -/
structure Mask where
  h   : Bool
  opc : Bool
  tos : Bool
  cpp : Bool
  lv  : Bool
  sp  : Bool
  pc  : Bool
  mdr : Bool
  mar : Bool
  mbr : Bool
  deriving DecidableEq, Repr

/-- The decoded record of a legal word (30_encoding R82): NEXT_ADDRESS and the field groups. -/
structure Mi where
  next  : Nat
  jump  : Jump
  shift : Shift
  alu   : AluCtl
  mask  : Mask
  mem   : MemOp
  b     : Reg
  deriving DecidableEq, Repr

/-- The causes of an EncodingError (60_exceptions R241, codes 4, 1, 2, 3 in the order they are tested, R251). -/
inductive EncodingCause where
  | reservedBits | shiftConflict | bUnassigned | memConflict
  deriving DecidableEq, Repr

/-- The instructions: one constructor for each row of spec/opcode_table.json. `mi` is the whole word. A constructor of
another legal row is the same record SEEN AS a micro-instruction that selects that row (30_encoding R100), and its own
field of the record is the row's value whatever the argument holds there (log 10). A constructor of an illegal row
carries the raw word. -/
inductive Instr where
  /-- `MI`, 45_execution_cycle R216. -/
  | mi (m : Mi)
  /-- `ALU_ZERO`, 41_alu R160. -/
  | aluZero (m : Mi)
  /-- `ALU_ONE`, 41_alu R161. -/
  | aluOne (m : Mi)
  /-- `ALU_MINUS1`, 41_alu R162. -/
  | aluMinus1 (m : Mi)
  /-- `ALU_MINUS1_INC`, 41_alu R163. -/
  | aluMinus1Inc (m : Mi)
  /-- `ALU_B`, 41_alu R164. -/
  | aluB (m : Mi)
  /-- `ALU_B_INC`, 41_alu R165. -/
  | aluBInc (m : Mi)
  /-- `ALU_B_DEC`, 41_alu R166. -/
  | aluBDec (m : Mi)
  /-- `ALU_B_DEC_INC`, 41_alu R167. -/
  | aluBDecInc (m : Mi)
  /-- `ALU_A`, 41_alu R168. -/
  | aluA (m : Mi)
  /-- `ALU_A_INC`, 41_alu R169. -/
  | aluAInc (m : Mi)
  /-- `ALU_NOT_A`, 41_alu R170. -/
  | aluNotA (m : Mi)
  /-- `ALU_NEG_A`, 41_alu R171. -/
  | aluNegA (m : Mi)
  /-- `ALU_ADD`, 41_alu R172. -/
  | aluAdd (m : Mi)
  /-- `ALU_ADD_INC`, 41_alu R173. -/
  | aluAddInc (m : Mi)
  /-- `ALU_RSUB_DEC`, 41_alu R174. -/
  | aluRsubDec (m : Mi)
  /-- `ALU_RSUB`, 41_alu R175. -/
  | aluRsub (m : Mi)
  /-- `SH_NONE`, 42_shifter R181. -/
  | shNone (m : Mi)
  /-- `SH_SLL8`, 42_shifter R182. -/
  | shSll8 (m : Mi)
  /-- `SH_SRA1`, 42_shifter R183. -/
  | shSra1 (m : Mi)
  /-- `MEM_NONE`, 43_memory_ops R194. -/
  | memNone (m : Mi)
  /-- `MEM_READ`, 43_memory_ops R191. -/
  | memRead (m : Mi)
  /-- `MEM_WRITE`, 43_memory_ops R192. -/
  | memWrite (m : Mi)
  /-- `MEM_FETCH`, 43_memory_ops R193. -/
  | memFetch (m : Mi)
  /-- `NEXT_UNCOND`, 44_next_address R201. -/
  | nextUncond (m : Mi)
  /-- `NEXT_JAMN`, 44_next_address R202. -/
  | nextJamn (m : Mi)
  /-- `NEXT_JAMZ`, 44_next_address R203. -/
  | nextJamz (m : Mi)
  /-- `NEXT_JAMNZ`, 44_next_address R204. -/
  | nextJamnz (m : Mi)
  /-- `B_MDR`, 40_register_file_and_buses R120. -/
  | bMdr (m : Mi)
  /-- `B_PC`, 40_register_file_and_buses R121. -/
  | bPc (m : Mi)
  /-- `B_MBR`, 40_register_file_and_buses R122. -/
  | bMbr (m : Mi)
  /-- `B_MBRU`, 40_register_file_and_buses R123. -/
  | bMbru (m : Mi)
  /-- `B_SP`, 40_register_file_and_buses R124. -/
  | bSp (m : Mi)
  /-- `B_LV`, 40_register_file_and_buses R125. -/
  | bLv (m : Mi)
  /-- `B_CPP`, 40_register_file_and_buses R126. -/
  | bCpp (m : Mi)
  /-- `B_TOS`, 40_register_file_and_buses R127. -/
  | bTos (m : Mi)
  /-- `B_OPC`, 40_register_file_and_buses R128. -/
  | bOpc (m : Mi)
  /-- `B_MAR`, 40_register_file_and_buses R129. -/
  | bMar (m : Mi)
  /-- `B_H`, 40_register_file_and_buses R130. -/
  | bH (m : Mi)
  /-- `C_H`, 40_register_file_and_buses R132. -/
  | cH (m : Mi)
  /-- `C_OPC`, 40_register_file_and_buses R133. -/
  | cOpc (m : Mi)
  /-- `C_TOS`, 40_register_file_and_buses R134. -/
  | cTos (m : Mi)
  /-- `C_CPP`, 40_register_file_and_buses R135. -/
  | cCpp (m : Mi)
  /-- `C_LV`, 40_register_file_and_buses R136. -/
  | cLv (m : Mi)
  /-- `C_SP`, 40_register_file_and_buses R137. -/
  | cSp (m : Mi)
  /-- `C_PC`, 40_register_file_and_buses R138. -/
  | cPc (m : Mi)
  /-- `C_MDR`, 40_register_file_and_buses R139. -/
  | cMdr (m : Mi)
  /-- `C_MAR`, 40_register_file_and_buses R140. -/
  | cMar (m : Mi)
  /-- `C_MBR`, 40_register_file_and_buses R141. -/
  | cMbr (m : Mi)
  /-- `ILLEGAL_SHIFT_CONFLICT`, 30_encoding R86. -/
  | illegalShiftConflict (raw : Nat)
  /-- `ILLEGAL_B_UNASSIGNED_11`, 30_encoding R87. -/
  | illegalBUnassigned11 (raw : Nat)
  /-- `ILLEGAL_B_UNASSIGNED_12_15`, 30_encoding R87. -/
  | illegalBUnassigned12To15 (raw : Nat)
  /-- `ILLEGAL_MEM_CONFLICT_WRITE_READ`, 30_encoding R88. -/
  | illegalMemConflictWriteRead (raw : Nat)
  /-- `ILLEGAL_MEM_CONFLICT_WRITE_FETCH`, 30_encoding R88. -/
  | illegalMemConflictWriteFetch (raw : Nat)
  /-- `ILLEGAL_MEM_CONFLICT_READ_FETCH`, 30_encoding R88. -/
  | illegalMemConflictReadFetch (raw : Nat)
  deriving DecidableEq, Repr

end Sys2Proof
end

