-- ==== Sys2Proof/WellFormed.lean ====
section
/-! DEFINITION. Which instructions are well formed under a NEXT_ADDR_WIDTH: the next address fits its field (spec
30_encoding R81, R83), the record's own field holds the row's value (30_encoding R90 to R95), and an illegal word is
one whose FIRST failing test is that row's (30_encoding R96; the rows of one cause in the order of the table). -/

namespace Sys2Proof

/-- NEXT_ADDRESS is a NEXT_ADDR_WIDTH-bit number (30_encoding R84); every other field is legal by its type. -/
def Mi.wf (width : Nat) (m : Mi) : Bool := decide (m.next < 2 ^ width)

/-- Both shifter bits are set (30_encoding R86). -/
def hasShiftConflict (raw : Nat) : Bool := raw.testBit 22 && raw.testBit 21

/-- The word fits MI_WIDTH bits (30_encoding R97). -/
def inContainer (width raw : Nat) : Bool := decide (raw < 2 ^ (25 + width))

def Instr.wellFormed (width : Nat) : Instr → Bool
  | .mi m => m.wf width
  | .aluZero m => m.wf width && m.alu == ⟨false, false, false, false⟩
  | .aluOne m => m.wf width && m.alu == ⟨false, false, false, true⟩
  | .aluMinus1 m => m.wf width && m.alu == ⟨false, false, true, false⟩
  | .aluMinus1Inc m => m.wf width && m.alu == ⟨false, false, true, true⟩
  | .aluB m => m.wf width && m.alu == ⟨false, true, false, false⟩
  | .aluBInc m => m.wf width && m.alu == ⟨false, true, false, true⟩
  | .aluBDec m => m.wf width && m.alu == ⟨false, true, true, false⟩
  | .aluBDecInc m => m.wf width && m.alu == ⟨false, true, true, true⟩
  | .aluA m => m.wf width && m.alu == ⟨true, false, false, false⟩
  | .aluAInc m => m.wf width && m.alu == ⟨true, false, false, true⟩
  | .aluNotA m => m.wf width && m.alu == ⟨true, false, true, false⟩
  | .aluNegA m => m.wf width && m.alu == ⟨true, false, true, true⟩
  | .aluAdd m => m.wf width && m.alu == ⟨true, true, false, false⟩
  | .aluAddInc m => m.wf width && m.alu == ⟨true, true, false, true⟩
  | .aluRsubDec m => m.wf width && m.alu == ⟨true, true, true, false⟩
  | .aluRsub m => m.wf width && m.alu == ⟨true, true, true, true⟩
  | .shNone m => m.wf width && m.shift == .pass
  | .shSll8 m => m.wf width && m.shift == .sll8
  | .shSra1 m => m.wf width && m.shift == .sra1
  | .memNone m => m.wf width && m.mem == .idle
  | .memRead m => m.wf width && m.mem == .read
  | .memWrite m => m.wf width && m.mem == .write
  | .memFetch m => m.wf width && m.mem == .fetch
  | .nextUncond m => m.wf width && m.jump == .uncond
  | .nextJamn m => m.wf width && m.jump == .jamn
  | .nextJamz m => m.wf width && m.jump == .jamz
  | .nextJamnz m => m.wf width && m.jump == .jamnz
  | .bMdr m => m.wf width && m.b == .mdr
  | .bPc m => m.wf width && m.b == .pc
  | .bMbr m => m.wf width && m.b == .mbr
  | .bMbru m => m.wf width && m.b == .mbru
  | .bSp m => m.wf width && m.b == .sp
  | .bLv m => m.wf width && m.b == .lv
  | .bCpp m => m.wf width && m.b == .cpp
  | .bTos m => m.wf width && m.b == .tos
  | .bOpc m => m.wf width && m.b == .opc
  | .bMar m => m.wf width && m.b == .mar
  | .bH m => m.wf width && m.b == .h
  | .cH m => m.wf width && m.mask.h
  | .cOpc m => m.wf width && m.mask.opc
  | .cTos m => m.wf width && m.mask.tos
  | .cCpp m => m.wf width && m.mask.cpp
  | .cLv m => m.wf width && m.mask.lv
  | .cSp m => m.wf width && m.mask.sp
  | .cPc m => m.wf width && m.mask.pc
  | .cMdr m => m.wf width && m.mask.mdr
  | .cMar m => m.wf width && m.mask.mar
  | .cMbr m => m.wf width && m.mask.mbr
  | .illegalShiftConflict raw => inContainer width raw && hasShiftConflict raw
  | .illegalBUnassigned11 raw => inContainer width raw && !hasShiftConflict raw && raw % 16 == 11
  | .illegalBUnassigned12To15 raw => inContainer width raw && !hasShiftConflict raw && decide (12 ≤ raw % 16)
  | .illegalMemConflictWriteRead raw =>
    inContainer width raw && !hasShiftConflict raw && decide (raw % 16 ≤ 10) && raw.testBit 6 && raw.testBit 5
  | .illegalMemConflictWriteFetch raw =>
    inContainer width raw && !hasShiftConflict raw && decide (raw % 16 ≤ 10) && raw.testBit 6 && !raw.testBit 5
      && raw.testBit 4
  | .illegalMemConflictReadFetch raw =>
    inContainer width raw && !hasShiftConflict raw && decide (raw % 16 ≤ 10) && !raw.testBit 6 && raw.testBit 5
      && raw.testBit 4

end Sys2Proof
end

