-- ==== Sys2Proof/Decode.lean ====
section
/-! DEFINITION. Encoding and decoding (spec 30_encoding): `decodeMi` is the spec's `decode` (R96, R97), total and
rejecting by cause; `decode` names the instruction a word is; `encode` writes the word (R99); the opcode table's
match and mask of every row (R100); the host's `decodeTableWord`. -/

namespace Sys2Proof

/-! ### Field codes -/

/-- B-bus select codes (30_encoding R90). -/
def Reg.code : Reg → Nat
  | .mdr => 0 | .pc => 1 | .mbr => 2 | .mbru => 3 | .sp => 4 | .lv => 5
  | .cpp => 6 | .tos => 7 | .opc => 8 | .mar => 9 | .h => 10

/-- The register of a select code; 11 and above are unassigned (30_encoding R90, R87). -/
def Reg.ofCode : Nat → Option Reg
  | 0 => some .mdr | 1 => some .pc | 2 => some .mbr | 3 => some .mbru | 4 => some .sp | 5 => some .lv
  | 6 => some .cpp | 7 => some .tos | 8 => some .opc | 9 => some .mar | 10 => some .h | _ => none

/-- SLL8 and SRA1; both set is illegal (30_encoding R93, R86). -/
def Shift.ofBits : (sll8 sra1 : Bool) → Option Shift
  | false, false => some .pass
  | true,  false => some .sll8
  | false, true  => some .sra1
  | true,  true  => none

/-- WRITE, READ and FETCH; more than one set is illegal (30_encoding R94, R88). -/
def MemOp.ofBits : (write read fetch : Bool) → Option MemOp
  | false, false, false => some .idle
  | false, true,  false => some .read
  | true,  false, false => some .write
  | false, false, true  => some .fetch
  | _,     _,     _     => none

/-- JAMN and JAMZ (30_encoding R95). -/
def Jump.ofBits : (jamn jamz : Bool) → Jump
  | false, false => .uncond
  | true,  false => .jamn
  | false, true  => .jamz
  | true,  true  => .jamnz

/-! ### The single-bit fields of the record (30_encoding R82) -/

def Shift.isSll8 : Shift → Bool
  | .sll8 => true | .pass => false | .sra1 => false
def Shift.isSra1 : Shift → Bool
  | .sra1 => true | .pass => false | .sll8 => false
def MemOp.isWrite : MemOp → Bool
  | .write => true | .idle => false | .read => false | .fetch => false
def MemOp.isRead : MemOp → Bool
  | .read => true | .idle => false | .write => false | .fetch => false
def MemOp.isFetch : MemOp → Bool
  | .fetch => true | .idle => false | .read => false | .write => false
def Jump.isJamn : Jump → Bool
  | .jamn => true | .jamnz => true | .uncond => false | .jamz => false
def Jump.isJamz : Jump → Bool
  | .jamz => true | .jamnz => true | .uncond => false | .jamn => false

/-! ### The record and its word -/

/-- `decode` of 30_encoding R96 with the container test of R97 first; the first test that fires gives the cause. -/
def decodeMi (width raw : Nat) : Except EncodingCause Mi :=
  if 2 ^ (25 + width) ≤ raw then .error .reservedBits
  else
    match Shift.ofBits (raw.testBit 22) (raw.testBit 21) with
    | none => .error .shiftConflict
    | some shift =>
      match Reg.ofCode (raw % 16) with
      | none => .error .bUnassigned
      | some b =>
        match MemOp.ofBits (raw.testBit 6) (raw.testBit 5) (raw.testBit 4) with
        | none => .error .memConflict
        | some mem => .ok {
            next  := raw >>> 25
            jump  := Jump.ofBits (raw.testBit 24) (raw.testBit 23)
            shift := shift
            alu   := ⟨raw.testBit 20, raw.testBit 19, raw.testBit 18, raw.testBit 17⟩
            mask  := ⟨raw.testBit 16, raw.testBit 15, raw.testBit 14, raw.testBit 13, raw.testBit 12,
                      raw.testBit 11, raw.testBit 10, raw.testBit 9, raw.testBit 8, raw.testBit 7⟩
            mem   := mem
            b     := b }

/-- A single-bit field at its place. -/
def bitAt (b : Bool) (n : Nat) : Nat := b.toNat <<< n

/-- The 25 bits below NEXT_ADDRESS (30_encoding R81, R99). -/
def Mi.controlBits (m : Mi) : Nat :=
  bitAt m.jump.isJamn 24 ||| bitAt m.jump.isJamz 23
    ||| bitAt m.shift.isSll8 22 ||| bitAt m.shift.isSra1 21
    ||| bitAt m.alu.ena 20 ||| bitAt m.alu.enb 19 ||| bitAt m.alu.inva 18 ||| bitAt m.alu.inc 17
    ||| bitAt m.mask.h 16 ||| bitAt m.mask.opc 15 ||| bitAt m.mask.tos 14 ||| bitAt m.mask.cpp 13
    ||| bitAt m.mask.lv 12 ||| bitAt m.mask.sp 11 ||| bitAt m.mask.pc 10 ||| bitAt m.mask.mdr 9
    ||| bitAt m.mask.mar 8 ||| bitAt m.mask.mbr 7
    ||| bitAt m.mem.isWrite 6 ||| bitAt m.mem.isRead 5 ||| bitAt m.mem.isFetch 4
    ||| m.b.code

/-- `encode` of a legal record (30_encoding R99). -/
def encodeMi (m : Mi) : Nat := m.next <<< 25 ||| m.controlBits

/-! ### The rows a legal word selects (30_encoding R100) -/

/-- The ALU row (30_encoding R92). -/
def Mi.aluRow (m : Mi) : Instr :=
  match m.alu with
  | ⟨false, false, false, false⟩ => .aluZero m
  | ⟨false, false, false, true⟩ => .aluOne m
  | ⟨false, false, true, false⟩ => .aluMinus1 m
  | ⟨false, false, true, true⟩ => .aluMinus1Inc m
  | ⟨false, true, false, false⟩ => .aluB m
  | ⟨false, true, false, true⟩ => .aluBInc m
  | ⟨false, true, true, false⟩ => .aluBDec m
  | ⟨false, true, true, true⟩ => .aluBDecInc m
  | ⟨true, false, false, false⟩ => .aluA m
  | ⟨true, false, false, true⟩ => .aluAInc m
  | ⟨true, false, true, false⟩ => .aluNotA m
  | ⟨true, false, true, true⟩ => .aluNegA m
  | ⟨true, true, false, false⟩ => .aluAdd m
  | ⟨true, true, false, true⟩ => .aluAddInc m
  | ⟨true, true, true, false⟩ => .aluRsubDec m
  | ⟨true, true, true, true⟩ => .aluRsub m

/-- The shifter row (30_encoding R93). -/
def Mi.shiftRow (m : Mi) : Instr :=
  match m.shift with
  | .pass => .shNone m
  | .sll8 => .shSll8 m
  | .sra1 => .shSra1 m

/-- The memory row (30_encoding R94). -/
def Mi.memRow (m : Mi) : Instr :=
  match m.mem with
  | .idle  => .memNone m
  | .read  => .memRead m
  | .write => .memWrite m
  | .fetch => .memFetch m

/-- The jump row (30_encoding R95). -/
def Mi.jumpRow (m : Mi) : Instr :=
  match m.jump with
  | .uncond => .nextUncond m
  | .jamn   => .nextJamn m
  | .jamz   => .nextJamz m
  | .jamnz  => .nextJamnz m

/-- The B-bus row (30_encoding R90). -/
def Mi.bRow (m : Mi) : Instr :=
  match m.b with
  | .mdr => .bMdr m
  | .pc => .bPc m
  | .mbr => .bMbr m
  | .mbru => .bMbru m
  | .sp => .bSp m
  | .lv => .bLv m
  | .cpp => .bCpp m
  | .tos => .bTos m
  | .opc => .bOpc m
  | .mar => .bMar m
  | .h => .bH m

/-- The ten destinations in the order of their bits (30_encoding R81, R91). -/
def Dest.all : List Dest := [.h, .opc, .tos, .cpp, .lv, .sp, .pc, .mdr, .mar, .mbr]

/-- The write-mask names a register (30_encoding R91). -/
def Mask.names (k : Mask) : Dest → Bool
  | .h => k.h | .opc => k.opc | .tos => k.tos | .cpp => k.cpp | .lv => k.lv
  | .sp => k.sp | .pc => k.pc | .mdr => k.mdr | .mar => k.mar | .mbr => k.mbr

/-- The C-bus row of a destination (30_encoding R91). -/
def Mi.cRow (m : Mi) : Dest → Instr
  | .h => .cH m
  | .opc => .cOpc m
  | .tos => .cTos m
  | .cpp => .cCpp m
  | .lv => .cLv m
  | .sp => .cSp m
  | .pc => .cPc m
  | .mdr => .cMdr m
  | .mar => .cMar m
  | .mbr => .cMbr m

/-- The C-bus rows, one for each write-mask bit that is set (30_encoding R91). -/
def Mi.cRows (m : Mi) : List Instr := (Dest.all.filter m.mask.names).map m.cRow

/-- Every row a legal word selects: `MI`, one row of each of five groups, any subset of the C-bus rows (R100). -/
def Mi.rows (m : Mi) : List Instr :=
  [.mi m, m.aluRow, m.shiftRow, m.memRow, m.jumpRow, m.bRow] ++ m.cRows

/-- The six field groups: whether the group stands at its all-zero row, and the row it selects (a write-mask that does
not name exactly one register has no single row, so `MI`). -/
def Mi.groups (m : Mi) : List (Bool × Instr) :=
  [(m.alu == ⟨false, false, false, false⟩, m.aluRow), (m.shift == .pass, m.shiftRow), (m.mem == .idle, m.memRow),
   (m.jump == .uncond, m.jumpRow), (m.b == .mdr, m.bRow),
   (m.cRows.isEmpty, match m.cRows with | [i] => i | _ => .mi m)]

/-- Which of its rows a legal word is named after (DESIGN CHOICE, log 10; every choice has the same meaning): the one
group that stands out, that is the only group not at its all-zero row or the only group at it; the word with every
group at its all-zero row is the unconditional jump alone; any other word is `MI`. -/
def Mi.name (m : Mi) : Instr :=
  match m.groups.filter (fun g => !g.1), m.groups.filter (fun g => g.1) with
  | [], _ => m.jumpRow
  | [g], _ => g.2
  | _, [g] => g.2
  | _, _ => .mi m

/-! ### Instructions and words -/

/-- The instruction a raw word is. An illegal word is the instruction of its illegal row, whose meaning takes the
failure; a bit above MI_WIDTH - 1 has no row and is rejected by name (30_encoding R96, R97, R100). -/
def decode (width raw : Nat) : Except EncodingCause Instr :=
  match decodeMi width raw with
  | .ok m => .ok m.name
  | .error .reservedBits => .error .reservedBits
  | .error .shiftConflict => .ok (.illegalShiftConflict raw)
  | .error .bUnassigned =>
    .ok (if raw % 16 = 11 then .illegalBUnassigned11 raw else .illegalBUnassigned12To15 raw)
  | .error .memConflict =>
    .ok (if raw.testBit 6 && raw.testBit 5 then .illegalMemConflictWriteRead raw
         else if raw.testBit 6 then .illegalMemConflictWriteFetch raw
         else .illegalMemConflictReadFetch raw)

/-- The record of a legal instruction: its own field holds the row's value (30_encoding R90 to R95). -/
def Instr.record : Instr → Option Mi
  | .mi m => some m
  | .aluZero m => some { m with alu := ⟨false, false, false, false⟩ }
  | .aluOne m => some { m with alu := ⟨false, false, false, true⟩ }
  | .aluMinus1 m => some { m with alu := ⟨false, false, true, false⟩ }
  | .aluMinus1Inc m => some { m with alu := ⟨false, false, true, true⟩ }
  | .aluB m => some { m with alu := ⟨false, true, false, false⟩ }
  | .aluBInc m => some { m with alu := ⟨false, true, false, true⟩ }
  | .aluBDec m => some { m with alu := ⟨false, true, true, false⟩ }
  | .aluBDecInc m => some { m with alu := ⟨false, true, true, true⟩ }
  | .aluA m => some { m with alu := ⟨true, false, false, false⟩ }
  | .aluAInc m => some { m with alu := ⟨true, false, false, true⟩ }
  | .aluNotA m => some { m with alu := ⟨true, false, true, false⟩ }
  | .aluNegA m => some { m with alu := ⟨true, false, true, true⟩ }
  | .aluAdd m => some { m with alu := ⟨true, true, false, false⟩ }
  | .aluAddInc m => some { m with alu := ⟨true, true, false, true⟩ }
  | .aluRsubDec m => some { m with alu := ⟨true, true, true, false⟩ }
  | .aluRsub m => some { m with alu := ⟨true, true, true, true⟩ }
  | .shNone m => some { m with shift := .pass }
  | .shSll8 m => some { m with shift := .sll8 }
  | .shSra1 m => some { m with shift := .sra1 }
  | .memNone m => some { m with mem := .idle }
  | .memRead m => some { m with mem := .read }
  | .memWrite m => some { m with mem := .write }
  | .memFetch m => some { m with mem := .fetch }
  | .nextUncond m => some { m with jump := .uncond }
  | .nextJamn m => some { m with jump := .jamn }
  | .nextJamz m => some { m with jump := .jamz }
  | .nextJamnz m => some { m with jump := .jamnz }
  | .bMdr m => some { m with b := .mdr }
  | .bPc m => some { m with b := .pc }
  | .bMbr m => some { m with b := .mbr }
  | .bMbru m => some { m with b := .mbru }
  | .bSp m => some { m with b := .sp }
  | .bLv m => some { m with b := .lv }
  | .bCpp m => some { m with b := .cpp }
  | .bTos m => some { m with b := .tos }
  | .bOpc m => some { m with b := .opc }
  | .bMar m => some { m with b := .mar }
  | .bH m => some { m with b := .h }
  | .cH m => some { m with mask := { m.mask with h := true } }
  | .cOpc m => some { m with mask := { m.mask with opc := true } }
  | .cTos m => some { m with mask := { m.mask with tos := true } }
  | .cCpp m => some { m with mask := { m.mask with cpp := true } }
  | .cLv m => some { m with mask := { m.mask with lv := true } }
  | .cSp m => some { m with mask := { m.mask with sp := true } }
  | .cPc m => some { m with mask := { m.mask with pc := true } }
  | .cMdr m => some { m with mask := { m.mask with mdr := true } }
  | .cMar m => some { m with mask := { m.mask with mar := true } }
  | .cMbr m => some { m with mask := { m.mask with mbr := true } }
  | .illegalShiftConflict _ => none
  | .illegalBUnassigned11 _ => none
  | .illegalBUnassigned12To15 _ => none
  | .illegalMemConflictWriteRead _ => none
  | .illegalMemConflictWriteFetch _ => none
  | .illegalMemConflictReadFetch _ => none

/-- The raw word of an illegal instruction. -/
def Instr.illegalWord : Instr → Option Nat
  | .illegalShiftConflict raw => some raw
  | .illegalBUnassigned11 raw => some raw
  | .illegalBUnassigned12To15 raw => some raw
  | .illegalMemConflictWriteRead raw => some raw
  | .illegalMemConflictWriteFetch raw => some raw
  | .illegalMemConflictReadFetch raw => some raw
  | .mi _ => none
  | .aluZero _ => none
  | .aluOne _ => none
  | .aluMinus1 _ => none
  | .aluMinus1Inc _ => none
  | .aluB _ => none
  | .aluBInc _ => none
  | .aluBDec _ => none
  | .aluBDecInc _ => none
  | .aluA _ => none
  | .aluAInc _ => none
  | .aluNotA _ => none
  | .aluNegA _ => none
  | .aluAdd _ => none
  | .aluAddInc _ => none
  | .aluRsubDec _ => none
  | .aluRsub _ => none
  | .shNone _ => none
  | .shSll8 _ => none
  | .shSra1 _ => none
  | .memNone _ => none
  | .memRead _ => none
  | .memWrite _ => none
  | .memFetch _ => none
  | .nextUncond _ => none
  | .nextJamn _ => none
  | .nextJamz _ => none
  | .nextJamnz _ => none
  | .bMdr _ => none
  | .bPc _ => none
  | .bMbr _ => none
  | .bMbru _ => none
  | .bSp _ => none
  | .bLv _ => none
  | .bCpp _ => none
  | .bTos _ => none
  | .bOpc _ => none
  | .bMar _ => none
  | .bH _ => none
  | .cH _ => none
  | .cOpc _ => none
  | .cTos _ => none
  | .cCpp _ => none
  | .cLv _ => none
  | .cSp _ => none
  | .cPc _ => none
  | .cMdr _ => none
  | .cMar _ => none
  | .cMbr _ => none

/-- The instruction is one of the table's illegal patterns. -/
def Instr.isIllegal (i : Instr) : Bool := i.illegalWord.isSome

/-- The word of an instruction (30_encoding R99; an illegal instruction is its word). -/
def encode (i : Instr) : Nat :=
  match i.record with
  | some m => encodeMi m
  | none => i.illegalWord.getD 0

/-- The name `decode` gives the word of an instruction: another row of the same word, or itself when it is illegal. -/
def Instr.canonical (i : Instr) : Instr :=
  match i.record with
  | some m => m.name
  | none => i

/-! ### The opcode table (30_encoding R100, spec/opcode_table.json) -/

/-- A row's pattern: a word `w` selects the row when `w &&& mask = bits`. -/
structure Pattern where
  bits : Nat
  mask : Nat
  deriving DecidableEq, Repr

def Pattern.selects (p : Pattern) (w : Nat) : Bool := w &&& p.mask == p.bits

/-- `match` and `mask` of an instruction's row, as the table writes them. -/
def Instr.pattern : Instr → Pattern
  | .mi _ => ⟨0x000000000, 0x000000000⟩
  | .aluZero _ => ⟨0x000000000, 0x0001e0000⟩
  | .aluOne _ => ⟨0x000020000, 0x0001e0000⟩
  | .aluMinus1 _ => ⟨0x000040000, 0x0001e0000⟩
  | .aluMinus1Inc _ => ⟨0x000060000, 0x0001e0000⟩
  | .aluB _ => ⟨0x000080000, 0x0001e0000⟩
  | .aluBInc _ => ⟨0x0000a0000, 0x0001e0000⟩
  | .aluBDec _ => ⟨0x0000c0000, 0x0001e0000⟩
  | .aluBDecInc _ => ⟨0x0000e0000, 0x0001e0000⟩
  | .aluA _ => ⟨0x000100000, 0x0001e0000⟩
  | .aluAInc _ => ⟨0x000120000, 0x0001e0000⟩
  | .aluNotA _ => ⟨0x000140000, 0x0001e0000⟩
  | .aluNegA _ => ⟨0x000160000, 0x0001e0000⟩
  | .aluAdd _ => ⟨0x000180000, 0x0001e0000⟩
  | .aluAddInc _ => ⟨0x0001a0000, 0x0001e0000⟩
  | .aluRsubDec _ => ⟨0x0001c0000, 0x0001e0000⟩
  | .aluRsub _ => ⟨0x0001e0000, 0x0001e0000⟩
  | .shNone _ => ⟨0x000000000, 0x000600000⟩
  | .shSll8 _ => ⟨0x000400000, 0x000600000⟩
  | .shSra1 _ => ⟨0x000200000, 0x000600000⟩
  | .memNone _ => ⟨0x000000000, 0x000000070⟩
  | .memRead _ => ⟨0x000000020, 0x000000070⟩
  | .memWrite _ => ⟨0x000000040, 0x000000070⟩
  | .memFetch _ => ⟨0x000000010, 0x000000070⟩
  | .nextUncond _ => ⟨0x000000000, 0x001800000⟩
  | .nextJamn _ => ⟨0x001000000, 0x001800000⟩
  | .nextJamz _ => ⟨0x000800000, 0x001800000⟩
  | .nextJamnz _ => ⟨0x001800000, 0x001800000⟩
  | .bMdr _ => ⟨0x000000000, 0x00000000f⟩
  | .bPc _ => ⟨0x000000001, 0x00000000f⟩
  | .bMbr _ => ⟨0x000000002, 0x00000000f⟩
  | .bMbru _ => ⟨0x000000003, 0x00000000f⟩
  | .bSp _ => ⟨0x000000004, 0x00000000f⟩
  | .bLv _ => ⟨0x000000005, 0x00000000f⟩
  | .bCpp _ => ⟨0x000000006, 0x00000000f⟩
  | .bTos _ => ⟨0x000000007, 0x00000000f⟩
  | .bOpc _ => ⟨0x000000008, 0x00000000f⟩
  | .bMar _ => ⟨0x000000009, 0x00000000f⟩
  | .bH _ => ⟨0x00000000a, 0x00000000f⟩
  | .cH _ => ⟨0x000010000, 0x000010000⟩
  | .cOpc _ => ⟨0x000008000, 0x000008000⟩
  | .cTos _ => ⟨0x000004000, 0x000004000⟩
  | .cCpp _ => ⟨0x000002000, 0x000002000⟩
  | .cLv _ => ⟨0x000001000, 0x000001000⟩
  | .cSp _ => ⟨0x000000800, 0x000000800⟩
  | .cPc _ => ⟨0x000000400, 0x000000400⟩
  | .cMdr _ => ⟨0x000000200, 0x000000200⟩
  | .cMar _ => ⟨0x000000100, 0x000000100⟩
  | .cMbr _ => ⟨0x000000080, 0x000000080⟩
  | .illegalShiftConflict _ => ⟨0x000600000, 0x000600000⟩
  | .illegalBUnassigned11 _ => ⟨0x00000000b, 0x00000000f⟩
  | .illegalBUnassigned12To15 _ => ⟨0x00000000c, 0x00000000c⟩
  | .illegalMemConflictWriteRead _ => ⟨0x000000060, 0x000000060⟩
  | .illegalMemConflictWriteFetch _ => ⟨0x000000050, 0x000000050⟩
  | .illegalMemConflictReadFetch _ => ⟨0x000000030, 0x000000030⟩

/-- The six illegal patterns. -/
def illegalPatterns : List Pattern :=
  [⟨0x000600000, 0x000600000⟩,
   ⟨0x00000000b, 0x00000000f⟩,
   ⟨0x00000000c, 0x00000000c⟩,
   ⟨0x000000060, 0x000000060⟩,
   ⟨0x000000050, 0x000000050⟩,
   ⟨0x000000030, 0x000000030⟩]

/-- The HOST's question: the instruction that the decoder reads from a word given as the opcode table numbers its
bits, under the default parameters; every bit above `nbits` is 0. One control-store entry is one number (30_encoding
R80), so there are no bytes to lay out (R59 of 20_memory). -/
def decodeTableWord (nbits w : Nat) : Option Instr :=
  match decode Params.default.nextAddrWidth (w % 2 ^ nbits) with
  | .ok i => some i
  | .error _ => none

end Sys2Proof
end

