-- ==== Sys2Proof/Machine/State.lean ====
section
/-! DEFINITION. The state of the machine (spec 10_state R20, R39), why a run can fail (60_exceptions R241), and the
state after reset (70_reset_and_hazards R270). Plain data only. -/

namespace Sys2Proof.Machine

/-- The register file (10_state R20, R22): nine 32-bit cells and the one byte that MBR and MBRU both expose (R24). -/
structure Regs where
  pc      : Word
  mar     : Word
  mdr     : Word
  sp      : Word
  lv      : Word
  cpp     : Word
  tos     : Word
  opc     : Word
  h       : Word
  mbrByte : Byte
  deriving DecidableEq, Repr

/-- The causes of an OutOfRange of the memory (60_exceptions R241, codes 6 to 9). -/
inductive MemCause where
  | memWordRead | memWordWrite | memByteRead | memByteWrite
  deriving DecidableEq, Repr

/-- A failure with its cause and info (60_exceptions R241). `memByteWrite` is raised by `setByte` alone, which no
micro-instruction reaches (43_memory_ops R195). -/
inductive Failure where
  /-- `EncodingError`; the info is the word. -/
  | encodingError (cause : EncodingCause) (word : Nat)
  /-- `OutOfRange(UPC)`; the info is `upc`. -/
  | outOfRangeUpc (upc : Nat)
  /-- `OutOfRange(MEM_*)`; the info is the address. -/
  | outOfRangeMem (cause : MemCause) (address : Word)
  deriving DecidableEq, Repr

/-- `status` (10_state R33). -/
inductive Status where
  | running
  | halted
  | failed (f : Failure)
  deriving DecidableEq, Repr

/-- The event of a completed cycle, `tickDone(executed, macroCodeFetching)` (45_execution_cycle R225). -/
structure TickDone where
  executed          : Nat
  macroCodeFetching : Bool
  deriving DecidableEq, Repr

/-- Main memory: the bytes that have been set, by number 4*word + offset, numbers strictly rising; what a byte that is
not listed reads as is `Memory.unlisted` (20_memory R50, R53; log 5, log 6). -/
abbrev Memory := List Host.Cell

/-- The loaded entries of the control store, `CS_IMAGE`: index and raw word, the first entry of an index counts
(44_next_address R205, 70_reset_and_hazards R273; log 3). -/
abbrev ControlStore := List (Nat × Nat)

/-- Everything the machine holds. The first four fields are the spec's state (10_state R20); `par` and `cs` are launch
parameters that never change during a run (10_state R21; log 1, log 3); the last three are the model's own record of
the hook: its answers to come (oldest first), the counter of the free answers, and the events emitted (newest first)
(45_execution_cycle R217, R225; log 7, log 8). -/
structure State where
  regs      : Regs
  upc       : Nat
  mem       : Memory
  status    : Status
  par       : Params
  cs        : ControlStore
  hookQueue : List Bool
  hookTick  : Nat
  ticks     : List TickDone
  deriving DecidableEq, Repr

/-- Why a step stops. Raised by the engine alone, never by an instruction: in a status other than RUNNING no cycle runs
(10_state R33, 45_execution_cycle R227). SAFE: the spec lets nothing happen there. -/
inductive Fault where
  /-- `status = HALTED`: raised by the engine when it is stepped again; safe. -/
  | halted
  /-- `status = FAILED(...)`: raised by the engine when it is stepped again; safe. -/
  | failed (f : Failure)
  deriving DecidableEq, Repr

/-- Why the model has no answer. -/
inductive Refusal where
  /-- An instruction without a meaning, rejected by its arm of `exec`; safe. No arm is rejected so. -/
  | notModelled (mnemonic : String)
  /-- A configuration outside the constraints of 00_scope R9: raised by `launch`, the environment's operation, never by
  a step (93_implementation_defined section 4, "refuse"); safe. -/
  | badConfiguration
  deriving DecidableEq, Repr

/-- What a step or a meaning answers. -/
abbrev Outcome := Host.Outcome State Fault Refusal

/-- The register file after reset: every cell 0 (10_state R28). -/
def Regs.reset : Regs := ⟨0, 0, 0, 0, 0, 0, 0, 0, 0, 0⟩

/-- Reset under given launch parameters (10_state R39, 70_reset_and_hazards R270): all registers 0, `upc = RESET_UPC`,
RUNNING, memory holds MEM_IMAGE, the control store holds CS_IMAGE; nothing answered, nothing emitted. -/
def State.resetOf (par : Params) (cs : ControlStore) (memImage : Memory) : State where
  regs      := Regs.reset
  upc       := par.resetUpc
  mem       := memImage
  status    := .running
  par       := par
  cs        := cs
  hookQueue := []
  hookTick  := 0
  ticks     := []

/-- The machine right after reset under the default parameters, with no image loaded (log 4, log 5). -/
def State.reset : State := State.resetOf Params.default [] []

end Sys2Proof.Machine
end

