-- ==== Sys2Proof/Machine/Memory.lean ====
section
/-! DEFINITION. Main memory: cells, the canonical form, the address checks and the four primitives (spec 20_memory
R50 to R59), and the lookup of the control store (44_next_address R205). -/

namespace Sys2Proof.Machine

/-! ### Cells in canonical form -/

/-- What a byte that is not listed reads as: a byte that nothing has set holds any value (10_state R39,
70_reset_and_hazards R273, 92_eei_decisions D18), so a free value of its number (log 5). -/
def Memory.unlisted (number : Nat) : Byte := Config.unloadedByte number

/-- What has been set at a byte, if anything has. -/
def Memory.lookup : Memory → Nat → Option Byte
  | [], _ => none
  | (k, v) :: rest, a => if a = k then some v else Memory.lookup rest a

/-- One byte of memory. -/
def Memory.read (m : Memory) (a : Nat) : Byte := (m.lookup a).getD (Memory.unlisted a)

/-- Set one byte, keeping the canonical form. -/
def Memory.write : Memory → Nat → Byte → Memory
  | [], a, v => [(a, v)]
  | (k, u) :: rest, a, v =>
    if a < k then (a, v) :: (k, u) :: rest
    else if a = k then (a, v) :: rest
    else (k, u) :: Memory.write rest a v

/-- Numbers from `low` on, strictly rising. -/
def Memory.risesFrom : Nat → Memory → Bool
  | _, [] => true
  | low, (a, _) :: rest => decide (low ≤ a) && Memory.risesFrom (a + 1) rest

/-- The canonical form: one entry for each byte that has been set, in rising order, so that memories with the same set
bytes are equal data. An unlisted byte reads as a free value, which no entry is compared with (log 5). -/
def Memory.wf (m : Memory) : Bool := Memory.risesFrom 0 m

/-- Every set byte lies inside the memory of `words` words (20_memory R51: no growth). -/
def Memory.within (words : Nat) (m : Memory) : Bool := m.all (fun c => decide (c.1 < 4 * words))

/-! ### Addresses -/

/-- A word address is in range: `0 <= s32(a) < MEM_WORDS` (20_memory R52). -/
def wordInRange (p : Params) (a : Word) : Bool := decide (0 ≤ a.toInt) && decide (a.toInt < p.memWords)

/-- The word index of a byte address, `floor(s32(a) / 4)` (20_memory R53). -/
def widx (a : Word) : Int := a.toInt / 4

/-- The byte offset of a byte address, `a[1:0]` (20_memory R53). -/
def off (a : Word) : Nat := a.toNat % 4

/-- A byte address is in range: `0 <= widx(a) < MEM_WORDS` (20_memory R53). -/
def byteInRange (p : Params) (a : Word) : Bool := decide (0 ≤ widx a) && decide (widx a < p.memWords)

/-- How far left the byte of an offset stands in its word (20_memory R58). -/
def lane : ByteOrder → Nat → Nat
  | .big, k => 8 * (3 - k)
  | .little, k => 8 * k

/-! ### Words made of bytes -/

/-- The byte of a word that stands in the lane of an offset (20_memory R58, R59). -/
def byteOfWord (o : ByteOrder) (v : Word) (k : Nat) : Byte := (v >>> lane o k).setWidth 8

/-- `M[w]`: the word of index `w`, from its four bytes (20_memory R50, R58). -/
def Memory.word (o : ByteOrder) (m : Memory) (w : Nat) : Word :=
  (m.read (4 * w)).setWidth 32 <<< lane o 0 ||| (m.read (4 * w + 1)).setWidth 32 <<< lane o 1
    ||| (m.read (4 * w + 2)).setWidth 32 <<< lane o 2 ||| (m.read (4 * w + 3)).setWidth 32 <<< lane o 3

/-- `M[w] <- v` (20_memory R55, R59). -/
def Memory.storeWord (o : ByteOrder) (m : Memory) (w : Nat) (v : Word) : Memory :=
  (((m.write (4 * w) (byteOfWord o v 0)).write (4 * w + 1) (byteOfWord o v 1)).write (4 * w + 2)
    (byteOfWord o v 2)).write (4 * w + 3) (byteOfWord o v 3)

/-! ### The primitives -/

/-- `size()`, the word count (20_memory R50). -/
def memSize (p : Params) : Nat := p.memWords

/-- `getWord(a)` (20_memory R54). -/
def getWord (p : Params) (m : Memory) (a : Word) : Except Failure Word :=
  if wordInRange p a then .ok (m.word p.byteOrder a.toInt.toNat) else .error (.outOfRangeMem .memWordRead a)

/-- `setWord(a, v)` (20_memory R55). -/
def setWord (p : Params) (m : Memory) (a : Word) (v : Word) : Except Failure Memory :=
  if wordInRange p a then .ok (m.storeWord p.byteOrder a.toInt.toNat v) else .error (.outOfRangeMem .memWordWrite a)

/-- `getByte(a)`, an unsigned byte (20_memory R56): the byte of offset `off(a)` in the word `widx(a)`. -/
def getByte (p : Params) (m : Memory) (a : Word) : Except Failure Byte :=
  if byteInRange p a then .ok (m.read (4 * (widx a).toNat + off a)) else .error (.outOfRangeMem .memByteRead a)

/-- `setByte(a, v)`: the low byte of `v` replaces one byte, the rest stays (20_memory R57). No micro-instruction
reaches it (43_memory_ops R195); it serves the environment. -/
def setByte (p : Params) (m : Memory) (a : Word) (v : Word) : Except Failure Memory :=
  if byteInRange p a then .ok (m.write (4 * (widx a).toNat + off a) (v.setWidth 8))
  else .error (.outOfRangeMem .memByteWrite a)

/-! ### The control store -/

/-- `CS_IMAGE[u]`: the loaded entry, else a free value of MI_WIDTH bits (70_reset_and_hazards R273; log 4). -/
def ControlStore.entry (p : Params) : ControlStore → Nat → Nat
  | [], u => Config.unloadedEntry u % 2 ^ p.miWidth
  | (k, w) :: rest, u => if u = k then w else ControlStore.entry p rest u

/-- Load one entry: a loader's act, never a cycle's (10_state R21). -/
def ControlStore.load (cs : ControlStore) (u w : Nat) : ControlStore := (u, w) :: cs.filter (fun e => e.1 != u)

end Sys2Proof.Machine
end

