-- ==== Sys2Proof/Machine/Operands.lean ====
section
/-! DEFINITION. The operands of a micro-instruction: reading and writing the register file (spec 10_state R22 to R25,
40_register_file_and_buses R110 to R116), the B-bus, the C-bus write-mask (R131), the address register of a FETCH
(43_memory_ops R193). -/

namespace Sys2Proof.Machine

/-- `sext_8` (00_scope R13). -/
def sext8 (b : Byte) : Word := b.signExtend 32

/-- `zext_8` (00_scope R13). -/
def zext8 (b : Byte) : Word := b.setWidth 32

/-- `v[7:0]` (00_scope R11). -/
def lowByte (v : Word) : Byte := v.setWidth 8

/-- `x[r]` (10_state R22, R24; 40_register_file_and_buses R110, R115). -/
def Regs.read (x : Regs) : Reg → Word
  | .mdr  => x.mdr
  | .pc   => x.pc
  | .mbr  => sext8 x.mbrByte
  | .mbru => zext8 x.mbrByte
  | .sp   => x.sp
  | .lv   => x.lv
  | .cpp  => x.cpp
  | .tos  => x.tos
  | .opc  => x.opc
  | .mar  => x.mar
  | .h    => x.h

/-- `x[q] <- v` (40_register_file_and_buses R111, and R112 for MBR; there is none for MBRU, R113). -/
def Regs.write (x : Regs) (q : Dest) (v : Word) : Regs :=
  match q with
  | .h   => { x with h := v }
  | .opc => { x with opc := v }
  | .tos => { x with tos := v }
  | .cpp => { x with cpp := v }
  | .lv  => { x with lv := v }
  | .sp  => { x with sp := v }
  | .pc  => { x with pc := v }
  | .mdr => { x with mdr := v }
  | .mar => { x with mar := v }
  | .mbr => { x with mbrByte := lowByte v }

/-- The register name a destination is read back under. -/
def regOf : Dest → Reg
  | .h => .h | .opc => .opc | .tos => .tos | .cpp => .cpp | .lv => .lv
  | .sp => .sp | .pc => .pc | .mdr => .mdr | .mar => .mar | .mbr => .mbr

/-- The C-bus writes of a cycle: every register the mask names receives the same `c` (40_register_file_and_buses R131,
R142, R143). -/
def Regs.writeMask (x : Regs) (k : Mask) (c : Word) : Regs :=
  (Dest.all.filter k.names).foldl (fun x q => x.write q c) x

/-- `x[FETCH_ADDR_REG]` (43_memory_ops R193, 20_memory R71). -/
def Regs.fetchAddress (p : Params) (x : Regs) : Word :=
  match p.fetchAddrReg with
  | .mar => x.mar
  | .pc  => x.pc

end Sys2Proof.Machine
end

