-- ==== Sys2Proof/Machine/Flags.lean ====
section
/-! DEFINITION. The flags of one cycle (spec 41_alu R153). They are wires, not state (10_state R32): computed from the
ALU result before the shifter and read by the next-address logic of the same cycle. -/

namespace Sys2Proof.Machine

/-- `N = r[31]`, that is `s32(r) < 0` (41_alu R153). -/
def flagN (r : Word) : Bool := r.getLsbD 31

/-- `Z = 1` exactly when all 32 bits are 0 (41_alu R153). -/
def flagZ (r : Word) : Bool := r == 0

end Sys2Proof.Machine
end

