-- ==== Sys2Proof/Machine/Ops.lean ====
section
/-! DEFINITION. The shared operations: the ALU (spec 41_alu R152), the shifter (42_shifter R180), the memory operation
(43_memory_ops R190 to R194), the next address (44_next_address R200), taking a failure (60_exceptions R240, R246),
the halt (45_execution_cycle R218), and the cycle's steps 2 to 8 over a datapath (R216). -/

namespace Sys2Proof.Machine

/-! ### ALU, shifter, next address -/

/-- The ALU result from its four control lines (41_alu R152): gate, invert A, add modulo 2^32, increment. -/
def aluResult (k : AluCtl) (a b : Word) : Word :=
  let a1 : Word := if k.ena then a else 0
  let a2 : Word := if k.inva then ~~~a1 else a1
  let b1 : Word := if k.enb then b else 0
  a2 + b1 + (if k.inc then 1 else 0)

/-- `r << 8` (42_shifter R182). -/
def sll8 (r : Word) : Word := r <<< 8

/-- `r >>s 1` (42_shifter R183). -/
def sra1 (r : Word) : Word := r.sshiftRight 1

/-- The shifter under a legal control value (42_shifter R181 to R183). -/
def shifter : Shift → Word → Word
  | .pass, r => r
  | .sll8, r => sll8 r
  | .sra1, r => sra1 r

/-- The shifter on its own, by its two control lines: both set is the failure SHIFT_CONFLICT (42_shifter R180, R184).
Inside a cycle decode has rejected that word already. -/
def shiftLines (r : Word) (sll8 sra1 : Bool) : Except EncodingCause Word :=
  match Shift.ofBits sll8 sra1 with
  | some k => .ok (shifter k r)
  | none => .error .shiftConflict

/-- A flag at its designated bit of the next address (44_next_address R200). -/
def flagAt (flag : Bool) (bit : Nat) : Nat := flag.toNat <<< bit

/-- `next_upc` (44_next_address R200). -/
def nextUpc (address : Nat) (j : Jump) (p : Params) (n z : Bool) : Nat :=
  address ||| flagAt (j.isJamn && n) p.jamnBit ||| flagAt (j.isJamz && z) p.jamzBit

/-! ### The memory operation of a cycle, on the registers as the C-bus writes left them (43_memory_ops R190) -/

/-- `MDR <- getWord(MAR)` (43_memory_ops R191). -/
def readAccess (p : Params) (x1 : Regs) (m : Memory) : Except Failure (Regs × Memory) :=
  match getWord p m x1.mar with
  | .ok v => .ok (x1.write .mdr v, m)
  | .error f => .error f

/-- `setWord(MAR, MDR)` (43_memory_ops R192). -/
def writeAccess (p : Params) (x1 : Regs) (m : Memory) : Except Failure (Regs × Memory) :=
  match setWord p m x1.mar x1.mdr with
  | .ok m2 => .ok (x1, m2)
  | .error f => .error f

/-- `MBR <- zext_8(getByte(FETCH_ADDR_REG))` (43_memory_ops R193). -/
def fetchAccess (p : Params) (x1 : Regs) (m : Memory) : Except Failure (Regs × Memory) :=
  match getByte p m (x1.fetchAddress p) with
  | .ok v => .ok (x1.write .mbr (zext8 v), m)
  | .error f => .error f

/-- No memory operation: no address is checked (43_memory_ops R194). -/
def noAccess (_p : Params) (x1 : Regs) (m : Memory) : Except Failure (Regs × Memory) := .ok (x1, m)

/-- The one memory operation of a cycle (43_memory_ops R190). -/
def memAccess : MemOp → Params → Regs → Memory → Except Failure (Regs × Memory)
  | .idle  => noAccess
  | .read  => readAccess
  | .write => writeAccess
  | .fetch => fetchAccess

/-! ### Failure and halt -/

/-- The kind and code of a failure (60_exceptions R241). -/
inductive FailureKind where
  | encodingError | outOfRange
  deriving DecidableEq, Repr

def Failure.kind : Failure → FailureKind
  | .encodingError _ _ => .encodingError
  | .outOfRangeUpc _ => .outOfRange
  | .outOfRangeMem _ _ => .outOfRange

def Failure.code : Failure → Nat
  | .encodingError .shiftConflict _ => 1
  | .encodingError .bUnassigned _ => 2
  | .encodingError .memConflict _ => 3
  | .encodingError .reservedBits _ => 4
  | .outOfRangeUpc _ => 5
  | .outOfRangeMem .memWordRead _ => 6
  | .outOfRangeMem .memWordWrite _ => 7
  | .outOfRangeMem .memByteRead _ => 8
  | .outOfRangeMem .memByteWrite _ => 9

/-- TAKING A FAILURE, the hardware's only exception (60_exceptions R240, R246, R252): `status <- FAILED(kind, cause)`;
no register, no memory word, not `upc`, no event. There is no handler and no return (R252, R253). -/
def State.fail (s : State) (f : Failure) : State := { s with status := .failed f }

/-- The halt, which is no failure (45_execution_cycle R218, 60_exceptions R254). -/
def State.halt (s : State) : State := { s with status := .halted }

/-! ### The cycle -/

/-- What one micro-instruction makes of each step of the cycle. A row's meaning is the datapath of the whole word with
that row's part put in from the row's own rule (30_encoding R100). -/
structure Datapath where
  /-- step 2: the B-bus -/
  bbus     : Regs → Word
  /-- step 3: the ALU on A and B -/
  alu      : Word → Word → Word
  /-- step 4: the shifter -/
  shift    : Word → Word
  /-- step 5, first half: the C-bus writes -/
  cbus     : Regs → Word → Regs
  /-- step 5, second half: the memory operation -/
  access   : Params → Regs → Memory → Except Failure (Regs × Memory)
  /-- step 6: the next address from N and Z -/
  next     : Params → Bool → Bool → Nat
  /-- step 7: the event -/
  event    : TickDone

/-- The datapath of a whole word (45_execution_cycle R216). -/
def datapath (m : Mi) : Datapath where
  bbus   := fun x => x.read m.b
  alu    := aluResult m.alu
  shift  := shifter m.shift
  cbus   := fun x c => x.writeMask m.mask c
  access := memAccess m.mem
  next   := nextUpc m.next m.jump
  event  := ⟨encodeMi m, m.mem.isFetch⟩

/-- Steps 2 to 8 of a cycle (45_execution_cycle R216, R220, R223 to R226): everything is prepared on copies, and the
commit is all or nothing (R223). -/
def runCycle (d : Datapath) (s : State) : Outcome :=
  let b := d.bbus s.regs
  let r := d.alu s.regs.h b
  let x1 := d.cbus s.regs (d.shift r)
  match d.access s.par x1 s.mem with
  | .error f => .next (s.fail f)
  | .ok (x2, m2) =>
    .next { s with
      regs := x2, mem := m2, upc := d.next s.par (flagN r) (flagZ r), ticks := d.event :: s.ticks }

end Sys2Proof.Machine
end

