-- ==== Sys2Proof/Machine/AluRows.lean ====
section
/-! DEFINITION. The 16 ALU rows (spec 41_alu R160 to R175): the micro-instruction seen as one that selects the row, its ALU
result as the row's own rule writes it. -/

namespace Sys2Proof.Machine

/-- `ALU_ZERO` (41_alu R160): `r = 0`. -/
def execAluZero (m : Mi) (s : State) : Outcome :=
  runCycle { datapath { m with alu := ⟨false, false, false, false⟩ } with alu := fun _ _ => 0 } s

/-- `ALU_ONE` (41_alu R161): `r = 0x00000001`. -/
def execAluOne (m : Mi) (s : State) : Outcome :=
  runCycle { datapath { m with alu := ⟨false, false, false, true⟩ } with alu := fun _ _ => 1 } s

/-- `ALU_MINUS1` (41_alu R162): `r = ~0 = 0xffffffff`. -/
def execAluMinus1 (m : Mi) (s : State) : Outcome :=
  runCycle { datapath { m with alu := ⟨false, false, true, false⟩ } with alu := fun _ _ => 0xffffffff } s

/-- `ALU_MINUS1_INC` (41_alu R163): `r = ~0 + 1 = 0`. -/
def execAluMinus1Inc (m : Mi) (s : State) : Outcome :=
  runCycle { datapath { m with alu := ⟨false, false, true, true⟩ } with alu := fun _ _ => 0 } s

/-- `ALU_B` (41_alu R164): `r = B`. -/
def execAluB (m : Mi) (s : State) : Outcome :=
  runCycle { datapath { m with alu := ⟨false, true, false, false⟩ } with alu := fun _ b => b } s

/-- `ALU_B_INC` (41_alu R165): `r = B + 1`. -/
def execAluBInc (m : Mi) (s : State) : Outcome :=
  runCycle { datapath { m with alu := ⟨false, true, false, true⟩ } with alu := fun _ b => b + 1 } s

/-- `ALU_B_DEC` (41_alu R166): `r = B - 1`. -/
def execAluBDec (m : Mi) (s : State) : Outcome :=
  runCycle { datapath { m with alu := ⟨false, true, true, false⟩ } with alu := fun _ b => b - 1 } s

/-- `ALU_B_DEC_INC` (41_alu R167): `r = B - 1 + 1 = B`. -/
def execAluBDecInc (m : Mi) (s : State) : Outcome :=
  runCycle { datapath { m with alu := ⟨false, true, true, true⟩ } with alu := fun _ b => b } s

/-- `ALU_A` (41_alu R168): `r = A`. -/
def execAluA (m : Mi) (s : State) : Outcome :=
  runCycle { datapath { m with alu := ⟨true, false, false, false⟩ } with alu := fun a _ => a } s

/-- `ALU_A_INC` (41_alu R169): `r = A + 1`. -/
def execAluAInc (m : Mi) (s : State) : Outcome :=
  runCycle { datapath { m with alu := ⟨true, false, false, true⟩ } with alu := fun a _ => a + 1 } s

/-- `ALU_NOT_A` (41_alu R170): `r = ~A`. -/
def execAluNotA (m : Mi) (s : State) : Outcome :=
  runCycle { datapath { m with alu := ⟨true, false, true, false⟩ } with alu := fun a _ => ~~~a } s

/-- `ALU_NEG_A` (41_alu R171): `r = -A`. -/
def execAluNegA (m : Mi) (s : State) : Outcome :=
  runCycle { datapath { m with alu := ⟨true, false, true, true⟩ } with alu := fun a _ => -a } s

/-- `ALU_ADD` (41_alu R172): `r = A + B`. -/
def execAluAdd (m : Mi) (s : State) : Outcome :=
  runCycle { datapath { m with alu := ⟨true, true, false, false⟩ } with alu := fun a b => a + b } s

/-- `ALU_ADD_INC` (41_alu R173): `r = A + B + 1`. -/
def execAluAddInc (m : Mi) (s : State) : Outcome :=
  runCycle { datapath { m with alu := ⟨true, true, false, true⟩ } with alu := fun a b => a + b + 1 } s

/-- `ALU_RSUB_DEC` (41_alu R174): `r = B - A - 1`. -/
def execAluRsubDec (m : Mi) (s : State) : Outcome :=
  runCycle { datapath { m with alu := ⟨true, true, true, false⟩ } with alu := fun a b => b - a - 1 } s

/-- `ALU_RSUB` (41_alu R175): `r = B - A`. -/
def execAluRsub (m : Mi) (s : State) : Outcome :=
  runCycle { datapath { m with alu := ⟨true, true, true, true⟩ } with alu := fun a b => b - a } s


end Sys2Proof.Machine
end

