-- ==== Sys2Proof/Machine/BBusRows.lean ====
section
/-! DEFINITION. The 11 B-bus rows (spec 40_register_file_and_buses R120 to R130). -/

namespace Sys2Proof.Machine

/-- `B_MDR` (40_register_file_and_buses R120): `b = x[MDR]`, as it was at the start of the cycle. -/
def execBMdr (m : Mi) (s : State) : Outcome :=
  runCycle { datapath { m with b := .mdr } with bbus := fun x => x.mdr } s

/-- `B_PC` (40_register_file_and_buses R121): `b = x[PC]`, as it was at the start of the cycle. -/
def execBPc (m : Mi) (s : State) : Outcome :=
  runCycle { datapath { m with b := .pc } with bbus := fun x => x.pc } s

/-- `B_MBR` (40_register_file_and_buses R122): `b = x[MBR] = sext_8(mbr_byte)`, as it was at the start of the cycle. -/
def execBMbr (m : Mi) (s : State) : Outcome :=
  runCycle { datapath { m with b := .mbr } with bbus := fun x => sext8 x.mbrByte } s

/-- `B_MBRU` (40_register_file_and_buses R123): `b = x[MBRU] = zext_8(mbr_byte)`, as it was at the start of the cycle. -/
def execBMbru (m : Mi) (s : State) : Outcome :=
  runCycle { datapath { m with b := .mbru } with bbus := fun x => zext8 x.mbrByte } s

/-- `B_SP` (40_register_file_and_buses R124): `b = x[SP]`, as it was at the start of the cycle. -/
def execBSp (m : Mi) (s : State) : Outcome :=
  runCycle { datapath { m with b := .sp } with bbus := fun x => x.sp } s

/-- `B_LV` (40_register_file_and_buses R125): `b = x[LV]`, as it was at the start of the cycle. -/
def execBLv (m : Mi) (s : State) : Outcome :=
  runCycle { datapath { m with b := .lv } with bbus := fun x => x.lv } s

/-- `B_CPP` (40_register_file_and_buses R126): `b = x[CPP]`, as it was at the start of the cycle. -/
def execBCpp (m : Mi) (s : State) : Outcome :=
  runCycle { datapath { m with b := .cpp } with bbus := fun x => x.cpp } s

/-- `B_TOS` (40_register_file_and_buses R127): `b = x[TOS]`, as it was at the start of the cycle. -/
def execBTos (m : Mi) (s : State) : Outcome :=
  runCycle { datapath { m with b := .tos } with bbus := fun x => x.tos } s

/-- `B_OPC` (40_register_file_and_buses R128): `b = x[OPC]`, as it was at the start of the cycle. -/
def execBOpc (m : Mi) (s : State) : Outcome :=
  runCycle { datapath { m with b := .opc } with bbus := fun x => x.opc } s

/-- `B_MAR` (40_register_file_and_buses R129): `b = x[MAR]`, as it was at the start of the cycle. -/
def execBMar (m : Mi) (s : State) : Outcome :=
  runCycle { datapath { m with b := .mar } with bbus := fun x => x.mar } s

/-- `B_H` (40_register_file_and_buses R130): `b = x[H]`, as it was at the start of the cycle. -/
def execBH (m : Mi) (s : State) : Outcome :=
  runCycle { datapath { m with b := .h } with bbus := fun x => x.h } s


end Sys2Proof.Machine
end

