-- ==== Sys2Proof/Machine/CBusRows.lean ====
section
/-! DEFINITION. The ten C-bus rows (spec 40_register_file_and_buses R132 to R141): the register receives the C-bus value `c`, and
so does every other register the mask names (R131, R143). -/

namespace Sys2Proof.Machine

/-- The C-bus writes of a cycle whose mask names `q`: the others the mask names, and `x[q] <- c` (R131). -/
def cbusNaming (k : Mask) (q : Dest) (x : Regs) (c : Word) : Regs := (x.writeMask k c).write q c

/-- `C_H` (40_register_file_and_buses R132): `x[H] <- c`. -/
def execCH (m : Mi) (s : State) : Outcome :=
  runCycle { datapath { m with mask := { m.mask with h := true } } with cbus := cbusNaming m.mask .h } s

/-- `C_OPC` (40_register_file_and_buses R133): `x[OPC] <- c`. -/
def execCOpc (m : Mi) (s : State) : Outcome :=
  runCycle { datapath { m with mask := { m.mask with opc := true } } with cbus := cbusNaming m.mask .opc } s

/-- `C_TOS` (40_register_file_and_buses R134): `x[TOS] <- c`. -/
def execCTos (m : Mi) (s : State) : Outcome :=
  runCycle { datapath { m with mask := { m.mask with tos := true } } with cbus := cbusNaming m.mask .tos } s

/-- `C_CPP` (40_register_file_and_buses R135): `x[CPP] <- c`. -/
def execCCpp (m : Mi) (s : State) : Outcome :=
  runCycle { datapath { m with mask := { m.mask with cpp := true } } with cbus := cbusNaming m.mask .cpp } s

/-- `C_LV` (40_register_file_and_buses R136): `x[LV] <- c`. -/
def execCLv (m : Mi) (s : State) : Outcome :=
  runCycle { datapath { m with mask := { m.mask with lv := true } } with cbus := cbusNaming m.mask .lv } s

/-- `C_SP` (40_register_file_and_buses R137): `x[SP] <- c`. -/
def execCSp (m : Mi) (s : State) : Outcome :=
  runCycle { datapath { m with mask := { m.mask with sp := true } } with cbus := cbusNaming m.mask .sp } s

/-- `C_PC` (40_register_file_and_buses R138): `x[PC] <- c`. -/
def execCPc (m : Mi) (s : State) : Outcome :=
  runCycle { datapath { m with mask := { m.mask with pc := true } } with cbus := cbusNaming m.mask .pc } s

/-- `C_MDR` (40_register_file_and_buses R139): `x[MDR] <- c`. -/
def execCMdr (m : Mi) (s : State) : Outcome :=
  runCycle { datapath { m with mask := { m.mask with mdr := true } } with cbus := cbusNaming m.mask .mdr } s

/-- `C_MAR` (40_register_file_and_buses R140): `x[MAR] <- c`. -/
def execCMar (m : Mi) (s : State) : Outcome :=
  runCycle { datapath { m with mask := { m.mask with mar := true } } with cbus := cbusNaming m.mask .mar } s

/-- `C_MBR` (40_register_file_and_buses R141): `x[MBR] <- c`, that is `mbr_byte <- c[7:0]`. -/
def execCMbr (m : Mi) (s : State) : Outcome :=
  runCycle { datapath { m with mask := { m.mask with mbr := true } } with cbus := cbusNaming m.mask .mbr } s


end Sys2Proof.Machine
end

