-- ==== Sys2Proof/Machine/JumpRows.lean ====
section
/-! DEFINITION. The four jump rows (spec 44_next_address R201 to R204). -/

namespace Sys2Proof.Machine

/-- `NEXT_UNCOND` (44_next_address R201): `upc <- NEXT_ADDRESS`. -/
def execNextUncond (m : Mi) (s : State) : Outcome :=
  runCycle { datapath { m with jump := .uncond } with next := fun _ _ _ => m.next } s

/-- `NEXT_JAMN` (44_next_address R202): `upc <- NEXT_ADDRESS | (N << JAMN_BIT)`. -/
def execNextJamn (m : Mi) (s : State) : Outcome :=
  runCycle { datapath { m with jump := .jamn } with next := fun p n _ => m.next ||| flagAt n p.jamnBit } s

/-- `NEXT_JAMZ` (44_next_address R203): `upc <- NEXT_ADDRESS | (Z << JAMZ_BIT)`. -/
def execNextJamz (m : Mi) (s : State) : Outcome :=
  runCycle { datapath { m with jump := .jamz } with next := fun p _ z => m.next ||| flagAt z p.jamzBit } s

/-- `NEXT_JAMNZ` (44_next_address R204): `upc <- NEXT_ADDRESS | (N << JAMN_BIT) | (Z << JAMZ_BIT)`. -/
def execNextJamnz (m : Mi) (s : State) : Outcome :=
  runCycle { datapath { m with jump := .jamnz } with next := fun p n z => m.next ||| flagAt n p.jamnBit ||| flagAt z p.jamzBit } s


end Sys2Proof.Machine
end

