-- ==== Sys2Proof/Machine/MemRows.lean ====
section
/-! DEFINITION. The four memory rows (spec 43_memory_ops R191 to R194). -/

namespace Sys2Proof.Machine

/-- `MEM_NONE` (43_memory_ops R194): no memory operation. -/
def execMemNone (m : Mi) (s : State) : Outcome :=
  runCycle { datapath { m with mem := .idle } with access := noAccess } s

/-- `MEM_READ` (43_memory_ops R191): `MDR <- getWord(MAR)`. -/
def execMemRead (m : Mi) (s : State) : Outcome :=
  runCycle { datapath { m with mem := .read } with access := readAccess } s

/-- `MEM_WRITE` (43_memory_ops R192): `setWord(MAR, MDR)`. -/
def execMemWrite (m : Mi) (s : State) : Outcome :=
  runCycle { datapath { m with mem := .write } with access := writeAccess } s

/-- `MEM_FETCH` (43_memory_ops R193): `MBR <- getByte(FETCH_ADDR_REG)`. -/
def execMemFetch (m : Mi) (s : State) : Outcome :=
  runCycle { datapath { m with mem := .fetch } with access := fetchAccess } s


end Sys2Proof.Machine
end

