-- ==== Sys2Proof/Machine/ShiftRows.lean ====
section
/-! DEFINITION. The three shifter rows (spec 42_shifter R181 to R183). -/

namespace Sys2Proof.Machine

/-- `SH_NONE` (42_shifter R181): `c = r`. -/
def execShNone (m : Mi) (s : State) : Outcome :=
  runCycle { datapath { m with shift := .pass } with shift := fun r => r } s

/-- `SH_SLL8` (42_shifter R182): `c = r << 8`. -/
def execShSll8 (m : Mi) (s : State) : Outcome :=
  runCycle { datapath { m with shift := .sll8 } with shift := sll8 } s

/-- `SH_SRA1` (42_shifter R183): `c = r >>s 1`. -/
def execShSra1 (m : Mi) (s : State) : Outcome :=
  runCycle { datapath { m with shift := .sra1 } with shift := sra1 } s


end Sys2Proof.Machine
end

