-- ==== Sys2Proof/Machine/WordRows.lean ====
section
/-! DEFINITION. The row of the whole word (spec 45_execution_cycle R216) and the six illegal rows (30_encoding R86, R87, R88;
60_exceptions R242, R246). -/

namespace Sys2Proof.Machine

/-- `MI` (45_execution_cycle R216): the whole word, every part by the general rule of its unit. -/
def execMi (m : Mi) (s : State) : Outcome := runCycle (datapath m) s

/-- `ILLEGAL_SHIFT_CONFLICT` (30_encoding R86): the decode of the word fails, and the cycle takes the failure (60_exceptions R242). -/
def execIllegalShiftConflict (raw : Nat) (s : State) : Outcome := .next (s.fail (.encodingError .shiftConflict raw))

/-- `ILLEGAL_B_UNASSIGNED_11` (30_encoding R87): the decode of the word fails, and the cycle takes the failure (60_exceptions R242). -/
def execIllegalBUnassigned11 (raw : Nat) (s : State) : Outcome := .next (s.fail (.encodingError .bUnassigned raw))

/-- `ILLEGAL_B_UNASSIGNED_12_15` (30_encoding R87): the decode of the word fails, and the cycle takes the failure (60_exceptions R242). -/
def execIllegalBUnassigned12To15 (raw : Nat) (s : State) : Outcome := .next (s.fail (.encodingError .bUnassigned raw))

/-- `ILLEGAL_MEM_CONFLICT_WRITE_READ` (30_encoding R88): the decode of the word fails, and the cycle takes the failure (60_exceptions R242). -/
def execIllegalMemConflictWriteRead (raw : Nat) (s : State) : Outcome := .next (s.fail (.encodingError .memConflict raw))

/-- `ILLEGAL_MEM_CONFLICT_WRITE_FETCH` (30_encoding R88): the decode of the word fails, and the cycle takes the failure (60_exceptions R242). -/
def execIllegalMemConflictWriteFetch (raw : Nat) (s : State) : Outcome := .next (s.fail (.encodingError .memConflict raw))

/-- `ILLEGAL_MEM_CONFLICT_READ_FETCH` (30_encoding R88): the decode of the word fails, and the cycle takes the failure (60_exceptions R242). -/
def execIllegalMemConflictReadFetch (raw : Nat) (s : State) : Outcome := .next (s.fail (.encodingError .memConflict raw))


end Sys2Proof.Machine
end

