-- ==== Sys2Proof/Machine/Dispatch.lean ====
section
/-! DEFINITION. The meaning of every instruction: one arm for each row of spec/opcode_table.json. -/

namespace Sys2Proof.Machine

def exec (i : Instr) (s : State) : Host.Outcome State Fault Refusal :=
  match i with
  | .mi m => Sys2Proof.Machine.execMi m s
  | .aluZero m => Sys2Proof.Machine.execAluZero m s
  | .aluOne m => Sys2Proof.Machine.execAluOne m s
  | .aluMinus1 m => Sys2Proof.Machine.execAluMinus1 m s
  | .aluMinus1Inc m => Sys2Proof.Machine.execAluMinus1Inc m s
  | .aluB m => Sys2Proof.Machine.execAluB m s
  | .aluBInc m => Sys2Proof.Machine.execAluBInc m s
  | .aluBDec m => Sys2Proof.Machine.execAluBDec m s
  | .aluBDecInc m => Sys2Proof.Machine.execAluBDecInc m s
  | .aluA m => Sys2Proof.Machine.execAluA m s
  | .aluAInc m => Sys2Proof.Machine.execAluAInc m s
  | .aluNotA m => Sys2Proof.Machine.execAluNotA m s
  | .aluNegA m => Sys2Proof.Machine.execAluNegA m s
  | .aluAdd m => Sys2Proof.Machine.execAluAdd m s
  | .aluAddInc m => Sys2Proof.Machine.execAluAddInc m s
  | .aluRsubDec m => Sys2Proof.Machine.execAluRsubDec m s
  | .aluRsub m => Sys2Proof.Machine.execAluRsub m s
  | .shNone m => Sys2Proof.Machine.execShNone m s
  | .shSll8 m => Sys2Proof.Machine.execShSll8 m s
  | .shSra1 m => Sys2Proof.Machine.execShSra1 m s
  | .memNone m => Sys2Proof.Machine.execMemNone m s
  | .memRead m => Sys2Proof.Machine.execMemRead m s
  | .memWrite m => Sys2Proof.Machine.execMemWrite m s
  | .memFetch m => Sys2Proof.Machine.execMemFetch m s
  | .nextUncond m => Sys2Proof.Machine.execNextUncond m s
  | .nextJamn m => Sys2Proof.Machine.execNextJamn m s
  | .nextJamz m => Sys2Proof.Machine.execNextJamz m s
  | .nextJamnz m => Sys2Proof.Machine.execNextJamnz m s
  | .bMdr m => Sys2Proof.Machine.execBMdr m s
  | .bPc m => Sys2Proof.Machine.execBPc m s
  | .bMbr m => Sys2Proof.Machine.execBMbr m s
  | .bMbru m => Sys2Proof.Machine.execBMbru m s
  | .bSp m => Sys2Proof.Machine.execBSp m s
  | .bLv m => Sys2Proof.Machine.execBLv m s
  | .bCpp m => Sys2Proof.Machine.execBCpp m s
  | .bTos m => Sys2Proof.Machine.execBTos m s
  | .bOpc m => Sys2Proof.Machine.execBOpc m s
  | .bMar m => Sys2Proof.Machine.execBMar m s
  | .bH m => Sys2Proof.Machine.execBH m s
  | .cH m => Sys2Proof.Machine.execCH m s
  | .cOpc m => Sys2Proof.Machine.execCOpc m s
  | .cTos m => Sys2Proof.Machine.execCTos m s
  | .cCpp m => Sys2Proof.Machine.execCCpp m s
  | .cLv m => Sys2Proof.Machine.execCLv m s
  | .cSp m => Sys2Proof.Machine.execCSp m s
  | .cPc m => Sys2Proof.Machine.execCPc m s
  | .cMdr m => Sys2Proof.Machine.execCMdr m s
  | .cMar m => Sys2Proof.Machine.execCMar m s
  | .cMbr m => Sys2Proof.Machine.execCMbr m s
  | .illegalShiftConflict raw => Sys2Proof.Machine.execIllegalShiftConflict raw s
  | .illegalBUnassigned11 raw => Sys2Proof.Machine.execIllegalBUnassigned11 raw s
  | .illegalBUnassigned12To15 raw => Sys2Proof.Machine.execIllegalBUnassigned12To15 raw s
  | .illegalMemConflictWriteRead raw => Sys2Proof.Machine.execIllegalMemConflictWriteRead raw s
  | .illegalMemConflictWriteFetch raw => Sys2Proof.Machine.execIllegalMemConflictWriteFetch raw s
  | .illegalMemConflictReadFetch raw => Sys2Proof.Machine.execIllegalMemConflictReadFetch raw s

end Sys2Proof.Machine
end

