-- ==== Sys2Proof/Machine/Engine.lean ====
section
/-! DEFINITION. The engine around an instruction: fetch, decode, the hook's pre-check, and which of them decides the
outcome of a cycle (spec 45_execution_cycle R216 to R219, 60_exceptions R251). -/

namespace Sys2Proof.Machine

/-- `instructionAt(upc)`: the raw word of the cycle, or `OutOfRange(UPC)` (44_next_address R205). -/
def fetchRaw (s : State) : Except Failure Nat :=
  if s.upc < s.par.csCapacity then .ok (s.cs.entry s.par s.upc) else .error (.outOfRangeUpc s.upc)

/-- The hook's answer to this cycle's `canContinue`: the next one listed, else a free value (45_execution_cycle R217;
log 7). -/
def hookAnswer (s : State) : Bool :=
  match s.hookQueue with
  | answer :: _ => answer
  | [] => Config.hookAnswer s.hookTick

/-- The state with this cycle's answer used up: only the model's own record of the hook changes (log 7). -/
def State.asked (s : State) : State :=
  match s.hookQueue with
  | _ :: later => { s with hookQueue := later }
  | [] => { s with hookTick := s.hookTick + 1 }

/-- What the hardware offers to the hook at step 1: `microLine`, the current word and record, and the unconditional
successor (45_execution_cycle R217). -/
structure HookOffer where
  microLine : Nat
  word      : Nat
  current   : Mi
  next      : Nat
  deriving DecidableEq, Repr

/-- The arguments of `canContinue`; there are none in a cycle that fails before the pre-check (45_execution_cycle R217,
R219) or in a status other than RUNNING. -/
def hookOffer (s : State) : Option HookOffer :=
  match s.status, fetchRaw s with
  | .running, .ok raw =>
    match decodeMi s.par.nextAddrWidth raw with
    | .ok m => some ⟨s.upc, raw, m, m.next⟩
    | .error _ => none
  | _, _ => none

/-- One micro-cycle over the meanings `run` (45_execution_cycle R216, 60_exceptions R251): upc range, decode, hook,
then the instruction. A word that does not decode fails before the hook is asked (R219). In HALTED and FAILED no cycle
runs: a stuck state (10_state R33). -/
def engine (run : Instr → State → Outcome) (s : State) : Outcome :=
  match s.status with
  | .halted => .fault .halted
  | .failed f => .fault (.failed f)
  | .running =>
    match fetchRaw s with
    | .error f => .next (s.fail f)
    | .ok raw =>
      match decode s.par.nextAddrWidth raw with
      | .error cause => .next (s.fail (.encodingError cause raw))
      | .ok i =>
        if i.isIllegal then run i s
        else if hookAnswer s then run i s.asked
        else .next s.asked.halt

end Sys2Proof.Machine
end

