-- ==== Sys2Proof/Machine/Environment.lean ====
section
/-! DEFINITION. What the environment does between cycles, outside `step` (spec 45_execution_cycle R229, R233;
70_reset_and_hazards R270 to R274; 20_memory R70; 10_state R27): load, launch, resume, observe. -/

namespace Sys2Proof.Machine

/-- Load one control-store entry before a run (70_reset_and_hazards R273). -/
def State.loadEntry (s : State) (u w : Nat) : State := { s with cs := s.cs.load u w }

/-- Load one memory word before a run; a word outside the memory does not exist (70_reset_and_hazards R271, R273;
20_memory R51). -/
def State.loadWord (s : State) (w : Nat) (v : Word) : State :=
  if w < s.par.memWords then { s with mem := s.mem.storeWord s.par.byteOrder w v } else s

/-- A launch: reset, then the registers the environment gives (70_reset_and_hazards R270, R271). A configuration
outside the constraints of 00_scope R9, or a memory image that is not one of that memory, is refused before a run
(93_implementation_defined section 4). -/
def launch (par : Params) (cs : ControlStore) (image : Memory) (regs : Regs) : Outcome :=
  if par.wf && image.wf && image.within par.memWords then
    .next { State.resetOf par cs image with regs := regs }
  else .refused .badConfiguration

/-- The loader's advised check of an image: every entry of the control store decodes (70_reset_and_hazards R274). The
hardware does not depend on it. -/
def imageDecodes (par : Params) (cs : ControlStore) : Bool :=
  (List.range par.csCapacity).all fun u =>
    match decodeMi par.nextAddrWidth (cs.entry par u) with
    | .ok _ => true
    | .error _ => false

/-- A new run from the present state: the only way on from HALTED or FAILED besides reset (45_execution_cycle R229,
70_reset_and_hazards R272). -/
def State.resume (s : State) : State := { s with status := .running }

/-- An observer's read of a register (10_state R27). -/
def State.observe (s : State) (r : Reg) : Word := s.regs.read r

/-- An observer's `getWord`; a failed one is the observer's error and leaves `status` alone (20_memory R70). -/
def State.observeWord (s : State) (a : Word) : Except Failure Word := getWord s.par s.mem a

/-- An observer's `getByte` (20_memory R70). -/
def State.observeByte (s : State) (a : Word) : Except Failure Byte := getByte s.par s.mem a

end Sys2Proof.Machine
end

