-- ==== Sys2Proof/Machine/Step.lean ====
section
/-! DEFINITION. One step of the machine is one micro-cycle (spec 45_execution_cycle R216), and the host's way of
placing an instruction where the next step fetches. -/

namespace Sys2Proof.Machine

/-- One micro-cycle (45_execution_cycle R216). -/
def step (s : State) : Host.Outcome State Fault Refusal := engine exec s

/-- The state with the word `w` (its bits above `nbits` 0) loaded at the control-store entry the next step fetches, and
what that step needs to run it: a micro-program counter inside the control store, RUNNING, and a hook that answers true
(log 4, log 15). -/
def State.withFetchWord (s : State) (nbits w : Nat) : State :=
  let u := if s.upc < s.par.csCapacity then s.upc else 0
  { s.resume.loadEntry u (w % 2 ^ nbits) with upc := u, hookQueue := true :: s.hookQueue }

end Sys2Proof.Machine
end

