-- ==== Sys2Proof/Machine/Cycle.lean ====
section
/-! DEFINITION. The pseudocode of spec 45_execution_cycle R216 (with `decode` of 30_encoding R96 and R97), transcribed
line by line over the bits of the raw word. `step` is not defined by it: it decodes to a row of the opcode table and
runs that row's meaning. That the two are one machine is a statement (Certificates). -/

namespace Sys2Proof.Machine

/-- `c` written to a register when its mask bit is 1. -/
def writeIf (bit : Bool) (q : Dest) (c : Word) (x : Regs) : Regs := if bit then x.write q c else x

/-- Step 5, first half: `for each set bit C_q of the write-mask: x1[q] <- c`. -/
def cycleCBus (w : Nat) (c : Word) (x : Regs) : Regs :=
  writeIf (w.testBit 7) .mbr c <| writeIf (w.testBit 8) .mar c <| writeIf (w.testBit 9) .mdr c <|
  writeIf (w.testBit 10) .pc c <| writeIf (w.testBit 11) .sp c <| writeIf (w.testBit 12) .lv c <|
  writeIf (w.testBit 13) .cpp c <| writeIf (w.testBit 14) .tos c <| writeIf (w.testBit 15) .opc c <|
  writeIf (w.testBit 16) .h c x

/-- Step 5, second half: READ, WRITE and FETCH, each when its flag is 1. -/
def cycleMem (p : Params) (w : Nat) (x1 : Regs) (m : Memory) : Except Failure (Regs × Memory) :=
  if w.testBit 5 then
    if 0 ≤ x1.mar.toInt ∧ x1.mar.toInt < p.memWords then
      .ok ({ x1 with mdr := m.word p.byteOrder x1.mar.toNat }, m)
    else .error (.outOfRangeMem .memWordRead x1.mar)
  else if w.testBit 6 then
    if 0 ≤ x1.mar.toInt ∧ x1.mar.toInt < p.memWords then
      .ok (x1, m.storeWord p.byteOrder x1.mar.toNat x1.mdr)
    else .error (.outOfRangeMem .memWordWrite x1.mar)
  else if w.testBit 4 then
    let ad := x1.fetchAddress p
    if 0 ≤ widx ad ∧ widx ad < p.memWords then .ok ({ x1 with mbrByte := m.read ad.toNat }, m)
    else .error (.outOfRangeMem .memByteRead ad)
  else .ok (x1, m)

/-- The legal word's steps 2 to 8, the register `reg(mi.B)` given. -/
def cycleBody (w : Nat) (reg : Reg) (s : State) : State :=
  let b := s.regs.read reg
  let a := s.regs.h
  let a1 : Word := if w.testBit 20 then a else 0
  let a2 : Word := if w.testBit 18 then ~~~a1 else a1
  let b1 : Word := if w.testBit 19 then b else 0
  let r : Word := a2 + b1 + (if w.testBit 17 then 1 else 0)
  let n : Bool := r.getLsbD 31
  let z : Bool := r == 0
  let c : Word := if w.testBit 22 then r <<< 8 else if w.testBit 21 then r.sshiftRight 1 else r
  let x1 := cycleCBus w c s.regs
  match cycleMem s.par w x1 s.mem with
  | .error f => { s with status := .failed f }
  | .ok (x2, m2) =>
    let t := w >>> 25 ||| ((w.testBit 24 && n).toNat <<< s.par.jamnBit)
      ||| ((w.testBit 23 && z).toNat <<< s.par.jamzBit)
    { s with regs := x2, mem := m2, upc := t, ticks := ⟨w, w.testBit 4⟩ :: s.ticks }

/-- `cycle(S, cont)` for a RUNNING state, `cont` the hook's answer. -/
def cycle (s : State) : State :=
  if s.par.csCapacity ≤ s.upc then { s with status := .failed (.outOfRangeUpc s.upc) }
  else
    let w := s.cs.entry s.par s.upc
    let bad := fun cause => { s with status := .failed (.encodingError cause w) }
    if 2 ^ s.par.miWidth ≤ w then bad .reservedBits
    else if w.testBit 22 ∧ w.testBit 21 then bad .shiftConflict
    else
      match Reg.ofCode (w % 16) with
      | none => bad .bUnassigned
      | some reg =>
        if 2 ≤ (w.testBit 6).toNat + (w.testBit 5).toNat + (w.testBit 4).toNat then bad .memConflict
        else if hookAnswer s then cycleBody w reg s.asked
        else { s.asked with status := .halted }

end Sys2Proof.Machine
end

