-- ==== Sys2Proof/Safety.lean ====
section
/-! DEFINITION. The invariant of the machine, what a safe state is, and the words the statements use for what the spec
says of a completed cycle: the registers, the memory, µPC and the event, each written from the spec's rule and read off
the state through the model's reads. -/

namespace Sys2Proof.Machine

/-- What holds of every launch the spec allows and of every state a run reaches from it: the configuration meets the
constraints of spec 00_scope R9; µPC has NEXT_ADDR_WIDTH bits (10_state R30); memory is canonical and lists nothing
outside its MEM_WORDS words (20_memory R51). -/
structure State.Inv (s : State) : Prop where
  params    : s.par.wf = true
  upcFits   : s.upc < 2 ^ s.par.nextAddrWidth
  memWf     : s.mem.wf = true
  memWithin : s.mem.within s.par.memWords = true

/-- A run is safe while it has not failed (60_exceptions R240; a halt is no failure, R254). -/
def State.safe (s : State) : Bool :=
  match s.status with
  | .failed _ => false
  | .running => true
  | .halted => true

/-! ### What the rules say of one cycle -/

/-- The result column of 30_encoding R92's table. -/
def aluTable (k : AluCtl) (a b : Word) : Word :=
  match k with
  | ⟨false, false, false, false⟩ => 0
  | ⟨false, false, false, true⟩ => 1
  | ⟨false, false, true, false⟩ => 0xffffffff
  | ⟨false, false, true, true⟩ => 0
  | ⟨false, true, false, false⟩ => b
  | ⟨false, true, false, true⟩ => b + 1
  | ⟨false, true, true, false⟩ => b - 1
  | ⟨false, true, true, true⟩ => b
  | ⟨true, false, false, false⟩ => a
  | ⟨true, false, false, true⟩ => a + 1
  | ⟨true, false, true, false⟩ => ~~~a
  | ⟨true, false, true, true⟩ => -a
  | ⟨true, true, false, false⟩ => a + b
  | ⟨true, true, false, true⟩ => a + b + 1
  | ⟨true, true, true, false⟩ => b - a - 1
  | ⟨true, true, true, true⟩ => b - a

/-- The C-bus value as a number: unchanged; times 256 modulo 2^32 (42_shifter R182); `floor(s32(r) / 2)` (R183). -/
def shifted : Shift → Word → Word
  | .pass, r => r
  | .sll8, r => BitVec.ofNat 32 (r.toNat * 256)
  | .sra1, r => BitVec.ofInt 32 (r.toInt / 2)

/-- What a register reads after the C-bus writes of a cycle (40_register_file_and_buses R111, R112, R131, R143): the
`x1[q]` of 43_memory_ops R190. -/
def afterCBus (k : Mask) (c : Word) (x : Regs) : Reg → Word
  | .mdr  => if k.mdr then c else x.mdr
  | .pc   => if k.pc then c else x.pc
  | .mbr  => if k.mbr then (c.setWidth 8).signExtend 32 else x.mbrByte.signExtend 32
  | .mbru => if k.mbr then (c.setWidth 8).setWidth 32 else x.mbrByte.setWidth 32
  | .sp   => if k.sp then c else x.sp
  | .lv   => if k.lv then c else x.lv
  | .cpp  => if k.cpp then c else x.cpp
  | .tos  => if k.tos then c else x.tos
  | .opc  => if k.opc then c else x.opc
  | .mar  => if k.mar then c else x.mar
  | .h    => if k.h then c else x.h

/-- `x1[FETCH_ADDR_REG]` (43_memory_ops R193). -/
def fetchAddressAfter (p : Params) (k : Mask) (c : Word) (x : Regs) : Word :=
  match p.fetchAddrReg with
  | .mar => afterCBus k c x .mar
  | .pc  => afterCBus k c x .pc

/-- The memory operation of the cycle is in range (43_memory_ops R191 to R194, on the registers after the C-bus
writes). -/
def accessOk (p : Params) (m : Mi) (c : Word) (x : Regs) : Bool :=
  match m.mem with
  | .idle  => true
  | .read  => wordInRange p (afterCBus m.mask c x .mar)
  | .write => wordInRange p (afterCBus m.mask c x .mar)
  | .fetch => byteInRange p (fetchAddressAfter p m.mask c x)

/-- The byte a FETCH loads: `(M[widx(a)] >>u lane(off(a)))[7:0]` (20_memory R56). -/
def fetchedByte (s : State) (a : Word) : Byte :=
  (s.mem.word s.par.byteOrder (widx a).toNat >>> lane s.par.byteOrder (off a)).setWidth 8

/-- What a register reads at the end of the cycle: the loaded value where the memory operation loads it, else what the
C-bus writes left (43_memory_ops R190 (b), R191, R193). -/
def registerAfter (s : State) (m : Mi) (c : Word) (q : Reg) : Word :=
  match m.mem, q with
  | .read, .mdr => s.mem.word s.par.byteOrder (afterCBus m.mask c s.regs .mar).toNat
  | .fetch, .mbr => (fetchedByte s (fetchAddressAfter s.par m.mask c s.regs)).signExtend 32
  | .fetch, .mbru => (fetchedByte s (fetchAddressAfter s.par m.mask c s.regs)).setWidth 32
  | _, _ => afterCBus m.mask c s.regs q

/-- What a byte of memory reads at the end of the cycle: a WRITE stores `x1[MDR]` at the word `x1[MAR]`, byte by byte in
its lanes, and nothing else changes a byte (43_memory_ops R192, 20_memory R55, R59). -/
def byteAfter (s : State) (m : Mi) (c : Word) (a : Nat) : Byte :=
  if m.mem = .write ∧ a / 4 = (afterCBus m.mask c s.regs .mar).toNat then
    (afterCBus m.mask c s.regs .mdr >>> lane s.par.byteOrder (a % 4)).setWidth 8
  else s.mem.read a

/-- The next address (44_next_address R200, with 41_alu R153: N when `s32(r) < 0`, Z when `r = 0`). -/
def upcAfter (s : State) (m : Mi) (r : Word) : Nat :=
  m.next ||| (if m.jump.isJamn ∧ r.toInt < 0 then 2 ^ s.par.jamnBit else 0)
    ||| (if m.jump.isJamz ∧ r = 0 then 2 ^ s.par.jamzBit else 0)

/-- `t` is `s` after the completed cycle of the record `m` with ALU result `r` and C-bus value `c`: result and frame. -/
structure Completed (s : State) (m : Mi) (r c : Word) (t : State) : Prop where
  regs      : ∀ q : Reg, t.regs.read q = registerAfter s m c q
  mem       : ∀ a : Nat, t.mem.read a = byteAfter s m c a
  upc       : t.upc = upcAfter s m r
  ticks     : t.ticks = ⟨encodeMi m, m.mem == .fetch⟩ :: s.ticks
  status    : t.status = s.status
  par       : t.par = s.par
  cs        : t.cs = s.cs
  hookQueue : t.hookQueue = s.hookQueue
  hookTick  : t.hookTick = s.hookTick

/-- The instruction `i`, which is the record `m`, completes with the ALU result `r` whenever memory is canonical and
its memory operation is in range. -/
def RunsWith (s : State) (i : Instr) (m : Mi) (r : Word) : Prop :=
  s.mem.wf = true → accessOk s.par m (shifted m.shift r) s.regs = true →
    ∃ t, exec i s = .next t ∧ Completed s m r (shifted m.shift r) t

/-- The ALU result of a record by 30_encoding R92's table: A is H, B is the register of the B field, both as they are at
the start of the cycle (40_register_file_and_buses R115, R116). -/
def tableResult (s : State) (m : Mi) : Word := aluTable m.alu (s.regs.read .h) (s.regs.read m.b)

/-- The C-bus value of a record (42_shifter R180, 40_register_file_and_buses R131). -/
def tableCBus (s : State) (m : Mi) : Word := shifted m.shift (tableResult s m)

/-- `t` differs from `s` in the status and the model's own record of the hook only. -/
structure SameButStatus (s t : State) : Prop where
  regs  : t.regs = s.regs
  upc   : t.upc = s.upc
  mem   : t.mem = s.mem
  par   : t.par = s.par
  cs    : t.cs = s.cs
  ticks : t.ticks = s.ticks

end Sys2Proof.Machine
end

