-- ==== Sys2Proof/Certificates/Slice0/Obligations.lean ====
section
/-! DEFINITION. The statements for the provers, from the numbered rules of spec/. -/

open Sys2Proof Sys2Proof.Machine

/-! ### Reset and launch -/

/-- 10_state R28, R29: after reset every one of the 11 names reads 0 and `mbr_byte` is 0; no name is without a value. -/
def Obligations.ResetClearsTheRegisterFile : Prop :=
  ∀ (p : Params) (cs : ControlStore) (image : Memory) (r : Reg),
    (State.resetOf p cs image).regs.read r = 0 ∧ (State.resetOf p cs image).regs.mbrByte = 0

/-- The rest of 10_state R39's table. RESET_UPC and the images are the spec's own decisions (92 D17, D18); that
State.reset takes the default parameters, 64 words and no image is the model's choice (log 2, log 4, log 5). -/
def Obligations.ResetSetsUpcStatusAndImages : Prop :=
  (∀ (p : Params) (cs : ControlStore) (image : Memory),
    (State.resetOf p cs image).upc = p.resetUpc ∧ (State.resetOf p cs image).status = .running ∧
    (State.resetOf p cs image).mem = image ∧ (State.resetOf p cs image).cs = cs ∧
    (State.resetOf p cs image).par = p ∧ (State.resetOf p cs image).ticks = []) ∧
  State.reset = State.resetOf ⟨9, 512, 0, 0, 64, .big, .mar, 0⟩ [] []

/-- The machine right after reset meets the invariant. -/
def Obligations.ResetMeetsTheInvariant : Prop := State.reset.Inv

/-- 70_reset_and_hazards R271 and 93 section 4: a launch with an allowed configuration and a memory image of that memory
starts in the invariant, with the registers the environment gave and everything else as reset leaves it; any other
launch is refused. -/
def Obligations.LaunchMeetsTheInvariantOrIsRefused : Prop :=
  ∀ (p : Params) (cs : ControlStore) (image : Memory) (x : Regs),
    (p.wf = true → image.wf = true → image.within p.memWords = true →
      ∃ t, launch p cs image x = .next t ∧ t.Inv ∧ t.regs = x ∧ t.upc = p.resetUpc ∧ t.mem = image ∧ t.cs = cs ∧
        t.par = p ∧ t.status = .running) ∧
    (p.wf = false ∨ image.wf = false ∨ image.within p.memWords = false →
      launch p cs image x = .refused .badConfiguration)

/-! ### Encoding and decoding -/

/-- 30_encoding R99 (derived there from R81 and R96): decode and encode are inverse on legal records and legal words,
for every NEXT_ADDR_WIDTH. -/
def Obligations.DecodeAndEncodeAreInverse : Prop :=
  (∀ (width : Nat) (m : Mi), m.wf width = true → decodeMi width (encodeMi m) = .ok m) ∧
  (∀ (width raw : Nat) (m : Mi), decodeMi width raw = .ok m → encodeMi m = raw ∧ m.wf width = true)

/-- Every well-formed instruction, the illegal ones among them, decodes from its word to the row that word is named
after (log 10), which is the same record; an illegal word decodes to its illegal row. -/
def Obligations.DecodeGivesTheInstructionOfItsWord : Prop :=
  ∀ (width : Nat) (i : Instr), i.wellFormed width = true →
    decode width (encode i) = .ok i.canonical ∧ i.canonical.wellFormed width = true ∧
    i.canonical.record = i.record ∧ i.canonical.illegalWord = i.illegalWord

/-- 30_encoding R100: a word of MI_WIDTH bits decodes exactly when none of the table's six illegal patterns selects
it. -/
def Obligations.WordIsLegalExactlyWhenNoIllegalRowSelectsIt : Prop :=
  ∀ width raw : Nat, raw < 2 ^ (25 + width) →
    ((∃ m, decodeMi width raw = .ok m) ↔ ∀ p ∈ illegalPatterns, p.selects raw = false)

/-- 30_encoding R100: by the table's masks a legal word selects exactly one row of each of the five groups, the C-bus
rows its write-mask names and no other, and the row of the whole word. -/
def Obligations.LegalWordSelectsOneRowOfEachGroup : Prop :=
  ∀ m : Mi,
    let selected := fun rows : List Instr => rows.filter (fun i => i.pattern.selects (encodeMi m))
    selected [.aluZero m, .aluOne m, .aluMinus1 m, .aluMinus1Inc m, .aluB m, .aluBInc m, .aluBDec m, .aluBDecInc m,
      .aluA m, .aluAInc m, .aluNotA m, .aluNegA m, .aluAdd m, .aluAddInc m, .aluRsubDec m, .aluRsub m] = [m.aluRow] ∧
    selected [.shNone m, .shSll8 m, .shSra1 m] = [m.shiftRow] ∧
    selected [.memNone m, .memRead m, .memWrite m, .memFetch m] = [m.memRow] ∧
    selected [.nextUncond m, .nextJamn m, .nextJamz m, .nextJamnz m] = [m.jumpRow] ∧
    selected [.bMdr m, .bPc m, .bMbr m, .bMbru m, .bSp m, .bLv m, .bCpp m, .bTos m, .bOpc m, .bMar m, .bH m]
      = [m.bRow] ∧
    (∀ q : Dest, (m.cRow q).pattern.selects (encodeMi m) = m.mask.names q) ∧
    (Instr.mi m).pattern.selects (encodeMi m) = true

/-- 30_encoding R86, 42_shifter R180: both shifter bits set is the failure SHIFT_CONFLICT, whatever the other bits are:
at decode, at the cycle that fetches the word, and of the shifter on its own for every `r`; every other setting of the
two bits shifts. That the whole step fails, whatever the hook would answer, is not in R86 or R180: it is 42_shifter R184
and 45_execution_cycle R219, the spec's decisions D23, D24 and its resolution C5 of 90_conflicts (log 12). That the two
bits are 22 and 21 of the word is its decision D1 (log 12). -/
def Obligations.BothShifterBitsFailWithShiftConflict : Prop :=
  (∀ width raw : Nat, raw < 2 ^ (25 + width) → raw.testBit 22 = true → raw.testBit 21 = true →
    decodeMi width raw = .error .shiftConflict) ∧
  (∀ (s : State) (raw : Nat), s.status = .running → fetchRaw s = .ok raw → raw < 2 ^ s.par.miWidth →
    raw.testBit 22 = true → raw.testBit 21 = true → step s = .next (s.fail (.encodingError .shiftConflict raw))) ∧
  (∀ (r : Word) (sll8 sra1 : Bool),
    shiftLines r sll8 sra1 =
      if sll8 && sra1 then .error .shiftConflict
      else .ok (if sll8 then r <<< 8 else if sra1 then r.sshiftRight 1 else r))

/-- Seven of the sixteen words of 95_test_vectors V314, which says of each whether it is legal, or its failure. The rows
named here are the model's choice: `mi` for a legal word of several groups (log 10), the WRITE_READ row for 0x70, of which
V314 says MEM_CONFLICT alone (log 11). The bit layout is the spec's decision D1 (log 12). -/
def Obligations.TableWordsDecodeAsTheSpecSays : Prop :=
  decode 9 0x00419012a = .ok (.mi ⟨2, .uncond, .pass, ⟨true, true, false, false⟩,
    ⟨true, false, false, false, false, false, false, false, true, false⟩, .read, .h⟩) ∧
  decode 9 0x0101e0242 = .ok (.mi ⟨8, .uncond, .pass, ⟨true, true, true, true⟩,
    ⟨false, false, false, false, false, false, false, true, false, false⟩, .write, .mbr⟩) ∧
  decode 9 0x3ffdfffca = .ok (.mi ⟨0x1ff, .jamnz, .sll8, ⟨true, true, true, true⟩,
    ⟨true, true, true, true, true, true, true, true, true, true⟩, .write, .h⟩) ∧
  decode 9 0x3ffffffff = .ok (.illegalShiftConflict 0x3ffffffff) ∧
  decode 9 0x00000003b = .ok (.illegalBUnassigned11 0x3b) ∧
  decode 9 0x000000070 = .ok (.illegalMemConflictWriteRead 0x70) ∧
  decode 9 0x400000000 = .error .reservedBits

/-! ### The step -/

/-- When the word at `upc` decodes, the step is `exec` of the decoded instruction: of an illegal one at once (the hook is
not asked, 45_execution_cycle R219), of a legal one after the hook's answer has been used up; a false answer halts
instead. -/
def Obligations.StepRunsTheDecodedInstruction : Prop :=
  ∀ (s : State) (raw : Nat) (i : Instr), s.status = .running → fetchRaw s = .ok raw →
    decode s.par.nextAddrWidth raw = .ok i →
    (i.isIllegal = true → step s = exec i s) ∧
    (i.isIllegal = false → hookAnswer s = true → step s = exec i s.asked) ∧
    (i.isIllegal = false → hookAnswer s = false → step s = .next s.asked.halt)

/-- 45_execution_cycle section 2: a step of a RUNNING state is the micro-cycle of the spec's pseudocode, line by line over
the bits of the word; in any other status the machine takes no step. The order inside the commit, the effects of a
failing cycle, the order of the tests and the A operand are the spec's decisions D13, D14, D23, D30 (log 12). -/
def Obligations.StepIsTheMicroCycleOfTheSpec : Prop :=
  ∀ s : State, (s.status = .running → step s = .next (cycle s)) ∧
    (s.status = .halted → step s = .fault .halted) ∧
    (∀ f, s.status = .failed f → step s = .fault (.failed f))

/-- Every row a word selects has the meaning of the whole word (30_encoding R100): the row's own rule agrees with the
general rule of its unit, and the row decode picks (log 10) makes no difference. -/
def Obligations.EveryRowOfAWordHasTheMeaningOfTheWord : Prop :=
  (∀ (i : Instr) (m : Mi) (s : State), i.record = some m → exec i s = exec (.mi m) s) ∧
  (∀ m : Mi, m.name ∈ m.rows ∧ ∀ i ∈ m.rows, i.record = some m)

/-- Every step keeps the invariant. -/
def Obligations.StepKeepsTheInvariant : Prop :=
  ∀ s t : State, s.Inv → step s = .next t → t.Inv

/-- How `status` moves (10_state section 5): RUNNING after reset; only a RUNNING state takes a step, so HALTED and FAILED
are never left by one; a step ends in HALTED exactly when the word decodes and the hook answers false, and in FAILED
exactly when the fetch fails, the decode fails, or the memory operation of a word the hook let run is out of range. Of a
failed decode the failure is EncodingError with the cause and the word; of a memory operation its kind is OutOfRange; of a
failed fetch nothing is said here. That HALTED needs a word that decodes and that a decode failure goes before a false
answer is the spec's decision D23, with D24 for the cycle that fails (log 12), not R33's words. -/
def Obligations.StatusIsLeftOnlyFromRunning : Prop :=
  (∀ (p : Params) (cs : ControlStore) (image : Memory), (State.resetOf p cs image).status = .running) ∧
  (∀ s t : State, step s = .next t →
    s.status = .running ∧
    (t.status = .halted ↔
      ∃ raw m, fetchRaw s = .ok raw ∧ decodeMi s.par.nextAddrWidth raw = .ok m ∧ hookAnswer s = false) ∧
    ((∃ f, t.status = .failed f) ↔
      (∃ f, fetchRaw s = .error f) ∨
      (∃ raw c, fetchRaw s = .ok raw ∧ decodeMi s.par.nextAddrWidth raw = .error c) ∨
      (∃ raw m, fetchRaw s = .ok raw ∧ decodeMi s.par.nextAddrWidth raw = .ok m ∧ hookAnswer s = true ∧
        accessOk s.par m (tableCBus s m) s.regs = false)) ∧
    (∀ f raw, t.status = .failed f → fetchRaw s = .ok raw →
      (∀ c, decodeMi s.par.nextAddrWidth raw = .error c → f = .encodingError c raw) ∧
      (∀ m, decodeMi s.par.nextAddrWidth raw = .ok m → f.kind = .outOfRange)))

/-- 10_state section 1: the control store and the parameters, which the model carries in State (log 1, log 3), never
change during a run. -/
def Obligations.LaunchParametersNeverChange : Prop :=
  ∀ s t : State, step s = .next t → t.par = s.par ∧ t.cs = s.cs

/-- 00_scope R16, 60_exceptions R252: a cycle that fails changes no register, no byte of memory and not `upc`, and emits
nothing: `status` records the failure and everything else is the pre-cycle state; the failed machine takes no further
step. -/
def Obligations.FailingCycleChangesOnlyTheStatus : Prop :=
  ∀ (s t : State) (f : Failure), step s = .next t → t.status = .failed f →
    SameButStatus s t ∧ step t = .fault (.failed f)

/-- 45_execution_cycle R218: when the hook answers false the machine halts without side effects, emits nothing, still
names the instruction it was about to run, and runs no further cycle. -/
def Obligations.FalseAnswerHaltsWithoutSideEffects : Prop :=
  ∀ (s : State) (raw : Nat) (m : Mi), s.status = .running → fetchRaw s = .ok raw →
    decodeMi s.par.nextAddrWidth raw = .ok m → hookAnswer s = false →
    ∃ t, step s = .next t ∧ t.status = .halted ∧ SameButStatus s t ∧ step t = .fault .halted

/-- 44_next_address R205: outside the control store the fetch fails with OutOfRange(UPC); inside it is the entry, and
the same index gives the same word after any step. That the whole step fails with that error, whatever the hook would
answer, is not in R205: it is 45_execution_cycle R219, the spec's decisions D23 and D24 (log 12). An entry nothing has
loaded is a free value (the spec's decision D18; log 4). -/
def Obligations.FetchReadsTheControlStoreOrFails : Prop :=
  ∀ s : State,
    (s.par.csCapacity ≤ s.upc → fetchRaw s = .error (.outOfRangeUpc s.upc) ∧
      (s.status = .running → step s = .next (s.fail (.outOfRangeUpc s.upc)))) ∧
    (s.upc < s.par.csCapacity → fetchRaw s = .ok (s.cs.entry s.par s.upc)) ∧
    (∀ t u, step s = .next t → t.cs.entry t.par u = s.cs.entry s.par u)

/-- 60_exceptions section 2 (the order is the spec's decision D23, log 12): upc range, then decode, then the hook, then
the memory range; the earlier test decides whatever the later ones would say. -/
def Obligations.TestsOfACycleAreMadeInOrder : Prop :=
  ∀ s : State, s.status = .running →
    (s.par.csCapacity ≤ s.upc → step s = .next (s.fail (.outOfRangeUpc s.upc))) ∧
    (∀ raw c, fetchRaw s = .ok raw → decodeMi s.par.nextAddrWidth raw = .error c →
      step s = .next (s.fail (.encodingError c raw))) ∧
    (∀ raw m, fetchRaw s = .ok raw → decodeMi s.par.nextAddrWidth raw = .ok m → hookAnswer s = false →
      step s = .next s.asked.halt) ∧
    (∀ raw m, fetchRaw s = .ok raw → decodeMi s.par.nextAddrWidth raw = .ok m → hookAnswer s = true →
      accessOk s.par m (tableCBus s m) s.regs = false →
      ∃ f, f.kind = .outOfRange ∧ step s = .next (s.asked.fail f))

/-- 30_encoding R96, R97: which word fails to decode with which cause; the first test that fires decides. -/
def Obligations.DecodeFailsWithTheFirstCause : Prop :=
  ∀ width raw : Nat,
    let reserved := 2 ^ (25 + width) ≤ raw
    let conflict := raw.testBit 22 = true ∧ raw.testBit 21 = true
    let unassigned := 11 ≤ raw % 16
    let several := 2 ≤ (raw.testBit 6).toNat + (raw.testBit 5).toNat + (raw.testBit 4).toNat
    (decodeMi width raw = .error .reservedBits ↔ reserved) ∧
    (decodeMi width raw = .error .shiftConflict ↔ ¬ reserved ∧ conflict) ∧
    (decodeMi width raw = .error .bUnassigned ↔ ¬ reserved ∧ ¬ conflict ∧ unassigned) ∧
    (decodeMi width raw = .error .memConflict ↔ ¬ reserved ∧ ¬ conflict ∧ ¬ unassigned ∧ several)

/-- 60_exceptions R244, R245: exactly the cycles with READ, WRITE or FETCH whose address, as the C-bus writes left it, is
out of range raise the memory failure of that request, with the address. -/
def Obligations.MemoryFailuresAreExactlyTheOutOfRangeRequests : Prop :=
  ∀ (s t : State) (raw : Nat) (m : Mi) (a : Word), s.status = .running → fetchRaw s = .ok raw →
    decodeMi s.par.nextAddrWidth raw = .ok m → hookAnswer s = true → step s = .next t →
    let mar := afterCBus m.mask (tableCBus s m) s.regs .mar
    let byteAddress := fetchAddressAfter s.par m.mask (tableCBus s m) s.regs
    (t.status = .failed (.outOfRangeMem .memWordRead a) ↔
      m.mem = .read ∧ a = mar ∧ ¬ (0 ≤ a.toInt ∧ a.toInt < s.par.memWords)) ∧
    (t.status = .failed (.outOfRangeMem .memWordWrite a) ↔
      m.mem = .write ∧ a = mar ∧ ¬ (0 ≤ a.toInt ∧ a.toInt < s.par.memWords)) ∧
    (t.status = .failed (.outOfRangeMem .memByteRead a) ↔
      m.mem = .fetch ∧ a = byteAddress ∧ (a.toInt < 0 ∨ s.par.memWords ≤ widx a)) ∧
    t.status ≠ .failed (.outOfRangeMem .memByteWrite a)

/-- 60_exceptions R243 (derived there): with a control store as large as µPC can name, no reachable cycle fails with
OutOfRange(UPC). -/
def Obligations.FullControlStoreNeverFailsAtFetch : Prop :=
  ∀ (s t : State) (u : Nat), s.Inv → s.par.csCapacity = 2 ^ s.par.nextAddrWidth → step s = .next t →
    t.status ≠ .failed (.outOfRangeUpc u)

/-- 45_execution_cycle R225 (the macro-fetch bit is the spec's decision D19): `tickDone` is emitted exactly once for a
cycle that completes, with the executed word and its FETCH bit, and never for one that halts or fails. -/
def Obligations.TickDoneIsEmittedOncePerCompletedCycle : Prop :=
  ∀ s t : State, step s = .next t →
    (t.status = .running → ∃ raw, fetchRaw s = .ok raw ∧ t.ticks = ⟨raw, raw.testBit 4⟩ :: s.ticks) ∧
    (t.status ≠ .running → t.ticks = s.ticks)

/-- 45_execution_cycle R217 (the candidate is the spec's decision D21): the hook is offered `upc`, the word, the record
and NEXT_ADDRESS; a cycle that fails before the pre-check offers nothing. -/
def Obligations.HookIsOfferedTheCurrentInstruction : Prop :=
  ∀ s : State, s.status = .running →
    (∀ raw m, fetchRaw s = .ok raw → decodeMi s.par.nextAddrWidth raw = .ok m →
      hookOffer s = some ⟨s.upc, raw, m, raw >>> 25⟩) ∧
    (hookOffer s = none ↔ ∃ t f, step s = .next t ∧ t.status = .failed f ∧ t.hookQueue = s.hookQueue ∧
      t.hookTick = s.hookTick)

/-- A word loaded where the next step fetches runs in that step (log 15). -/
def Obligations.LoadedWordRunsInTheNextStep : Prop :=
  ∀ (s : State) (nbits w : Nat) (i : Instr), 1 ≤ s.par.csCapacity →
    decode s.par.nextAddrWidth (w % 2 ^ nbits) = .ok i → i.isIllegal = false →
    ∃ t, step (s.withFetchWord nbits w) = exec i t ∧ t.regs = s.regs ∧ t.mem = s.mem ∧ t.par = s.par ∧
      t.status = .running ∧ t.ticks = s.ticks ∧ (s.upc < s.par.csCapacity → t.upc = s.upc)

/-! ### The rows of the opcode table: encoding, completion, result and frame -/

/-- 45_execution_cycle section 2: the whole word completes whenever its memory operation is in range, with the table's
ALU result (the order inside the commit is the spec's decision D13, log 12). -/
def Obligations.WholeWordCompletes : Prop :=
  ∀ (m : Mi) (s : State), RunsWith s (.mi m) m (tableResult s m)

/-- What 41_alu says of one row: its control bits, and that it completes with its own result from A (H) and B. -/
def AluRowRule (row : Mi → Instr) (k : AluCtl) (bits : Nat) (result : Word → Word → Word) : Prop :=
  ∀ (m : Mi) (s : State),
    encode (row m) &&& 0x0001e0000 = bits ∧
    RunsWith s (row m) { m with alu := k } (result (s.regs.read .h) (s.regs.read m.b))

/-- 41_alu R160 to R167: the rows without operand A. -/
def Obligations.AluRowsWithoutA : Prop :=
  AluRowRule .aluZero ⟨false, false, false, false⟩ 0x000000000 (fun _ _ => 0) ∧
  AluRowRule .aluOne ⟨false, false, false, true⟩ 0x000020000 (fun _ _ => 1) ∧
  AluRowRule .aluMinus1 ⟨false, false, true, false⟩ 0x000040000 (fun _ _ => 0xffffffff) ∧
  AluRowRule .aluMinus1Inc ⟨false, false, true, true⟩ 0x000060000 (fun _ _ => 0) ∧
  AluRowRule .aluB ⟨false, true, false, false⟩ 0x000080000 (fun _ b => b) ∧
  AluRowRule .aluBInc ⟨false, true, false, true⟩ 0x0000a0000 (fun _ b => b + 1) ∧
  AluRowRule .aluBDec ⟨false, true, true, false⟩ 0x0000c0000 (fun _ b => b - 1) ∧
  AluRowRule .aluBDecInc ⟨false, true, true, true⟩ 0x0000e0000 (fun _ b => b)

/-- 41_alu R168 to R175: the rows with operand A; and for `ALU_RSUB`, Z = 1 exactly when A = B, and N need not be a
signed less-than. -/
def Obligations.AluRowsWithA : Prop :=
  AluRowRule .aluA ⟨true, false, false, false⟩ 0x000100000 (fun a _ => a) ∧
  AluRowRule .aluAInc ⟨true, false, false, true⟩ 0x000120000 (fun a _ => a + 1) ∧
  AluRowRule .aluNotA ⟨true, false, true, false⟩ 0x000140000 (fun a _ => ~~~a) ∧
  AluRowRule .aluNegA ⟨true, false, true, true⟩ 0x000160000 (fun a _ => -a) ∧
  AluRowRule .aluAdd ⟨true, true, false, false⟩ 0x000180000 (fun a b => a + b) ∧
  AluRowRule .aluAddInc ⟨true, true, false, true⟩ 0x0001a0000 (fun a b => a + b + 1) ∧
  AluRowRule .aluRsubDec ⟨true, true, true, false⟩ 0x0001c0000 (fun a b => b - a - 1) ∧
  AluRowRule .aluRsub ⟨true, true, true, true⟩ 0x0001e0000 (fun a b => b - a) ∧
  (∀ a b : Word, flagZ (aluResult ⟨true, true, true, true⟩ a b) = decide (a = b)) ∧
  ((0x80000000 : Word).toInt < (0x00000001 : Word).toInt ∧
    flagN (aluResult ⟨true, true, true, true⟩ 0x00000001 0x80000000) = false)

/-- 41_alu R152, R155: the ALU in the order the spec gives: gate A, complement it, gate B, add both and the increment
modulo 2^32 (here as numbers); N is bit 31 of the result and Z says that it is 0. -/
def Obligations.AluAddsModuloTwoToThe32 : Prop :=
  ∀ (k : AluCtl) (a b : Word),
    let a1 := if k.ena then a.toNat else 0
    let a2 := if k.inva then 2 ^ 32 - 1 - a1 else a1
    let b1 := if k.enb then b.toNat else 0
    (aluResult k a b).toNat = (a2 + b1 + (if k.inc then 1 else 0)) % 2 ^ 32 ∧
    flagN (aluResult k a b) = (aluResult k a b).getLsbD 31 ∧
    (flagZ (aluResult k a b) = true ↔ (a2 + b1 + (if k.inc then 1 else 0)) % 2 ^ 32 = 0)

/-- 41_alu R153: N is bit 31 of the ALU result, which is `s32(r) < 0`; Z is set exactly when all 32 bits are 0; they are
never both 1; and both are taken from the result before the shifter, in the cycle that uses them (44_next_address
R206). -/
def Obligations.FlagsComeFromTheAluResult : Prop :=
  (∀ r : Word, flagN r = r.getLsbD 31 ∧ (flagN r = true ↔ r.toInt < 0) ∧
    (flagZ r = true ↔ ∀ i, i < 32 → r.getLsbD i = false) ∧ ¬ (flagN r = true ∧ flagZ r = true)) ∧
  (∀ (m : Mi) (s t : State), s.status = .running → exec (.mi m) s = .next t → t.status = .running →
    t.upc = nextUpc m.next m.jump s.par (flagN (aluResult m.alu s.regs.h (s.regs.read m.b)))
      (flagZ (aluResult m.alu s.regs.h (s.regs.read m.b))))

/-- 42_shifter R181 to R183: the shifter rows: control bits, completion, and the C-bus value as bits and as a number;
the flags are those of the ALU result. -/
def Obligations.ShifterRowsShift : Prop :=
  (∀ (m : Mi) (s : State),
    (encode (.shNone m) &&& 0x000600000 = 0x000000000 ∧
      RunsWith s (.shNone m) { m with shift := .pass } (tableResult s m)) ∧
    (encode (.shSll8 m) &&& 0x000600000 = 0x000400000 ∧
      RunsWith s (.shSll8 m) { m with shift := .sll8 } (tableResult s m)) ∧
    (encode (.shSra1 m) &&& 0x000600000 = 0x000200000 ∧
      RunsWith s (.shSra1 m) { m with shift := .sra1 } (tableResult s m))) ∧
  (∀ (r : Word) (i : Nat), i < 32 →
    (shifter .pass r).getLsbD i = r.getLsbD i ∧
    (shifter .sll8 r).getLsbD i = (if i < 8 then false else r.getLsbD (i - 8)) ∧
    (shifter .sra1 r).getLsbD i = (if i = 31 then r.getLsbD 31 else r.getLsbD (i + 1)))

/-- What 44_next_address says of one jump row: its two bits, that it completes, and the next address it gives. -/
def JumpRowRule (row : Mi → Instr) (j : Jump) (bits : Nat) (next : Params → Nat → Nat → Nat → Nat) : Prop :=
  ∀ (m : Mi) (s : State),
    let r := tableResult s m
    let n := if r.toInt < 0 then 1 else 0
    let z := if r = 0 then 1 else 0
    encode (row m) &&& 0x001800000 = bits ∧ RunsWith s (row m) { m with jump := j } r ∧
    upcAfter s { m with jump := j } r = next s.par m.next n z

/-- 44_next_address R201 to R203: the jump rows of at most one flag: control bits, completion, and the next address from
N and Z of the same cycle's ALU result. -/
def Obligations.JumpRowsComputeTheNextAddress : Prop :=
  JumpRowRule .nextUncond .uncond 0x000000000 (fun _ a _ _ => a) ∧
  JumpRowRule .nextJamn .jamn 0x001000000 (fun p a n _ => a ||| n <<< p.jamnBit) ∧
  JumpRowRule .nextJamz .jamz 0x000800000 (fun p a _ z => a ||| z <<< p.jamzBit)

/-- 44_next_address section 3 (that both bits OR both flags in is the spec's decision D15, log 12): NEXT_JAMNZ, and when
both flags go to one bit the jump is taken on either. -/
def Obligations.JumpOnBothFlagsOrsBothIn : Prop :=
  JumpRowRule .nextJamnz .jamnz 0x001800000 (fun p a n z => a ||| n <<< p.jamnBit ||| z <<< p.jamzBit) ∧
  (∀ (s : State) (m : Mi) (r : Word), m.jump = .jamnz → s.par.jamnBit = s.par.jamzBit →
    upcAfter s m r = if r.toInt ≤ 0 then m.next ||| 2 ^ s.par.jamnBit else m.next)

/-- 43_memory_ops (which primitive and register a request uses is the spec's decision D10, the new MAR its
decision D13; log 12): READ loads the word at the new MAR into MDR or fails with the address and no effect; MEM_NONE
completes whatever MAR holds. -/
def Obligations.ReadRowLoadsAWordAndNoneChecksNothing : Prop :=
  ∀ (m : Mi) (s : State),
    let address := afterCBus m.mask (tableCBus s m) s.regs .mar
    (encode (.memRead m) &&& 0x000000070 = 0x000000020 ∧
      RunsWith s (.memRead m) { m with mem := .read } (tableResult s m) ∧
      (wordInRange s.par address = false →
        exec (.memRead m) s = .next (s.fail (.outOfRangeMem .memWordRead address)))) ∧
    (encode (.memNone m) &&& 0x000000070 = 0x000000000 ∧
      RunsWith s (.memNone m) { m with mem := .idle } (tableResult s m) ∧
      accessOk s.par { m with mem := .idle } (tableCBus s m) s.regs = true)

/-- 43_memory_ops (primitives, write data and FETCH's address register are the spec's decisions D10, D13, D29,
D11; log 12): WRITE
stores the new MDR at the new MAR and nothing else; FETCH loads the byte into MBR and MBRU; out of range each fails with
the address and no effect. -/
def Obligations.WriteRowStoresAndFetchRowLoadsAByte : Prop :=
  ∀ (m : Mi) (s : State),
    let address := afterCBus m.mask (tableCBus s m) s.regs .mar
    let byteAddress := fetchAddressAfter s.par m.mask (tableCBus s m) s.regs
    (encode (.memWrite m) &&& 0x000000070 = 0x000000040 ∧
      RunsWith s (.memWrite m) { m with mem := .write } (tableResult s m) ∧
      (wordInRange s.par address = false →
        exec (.memWrite m) s = .next (s.fail (.outOfRangeMem .memWordWrite address)))) ∧
    (encode (.memFetch m) &&& 0x000000070 = 0x000000010 ∧
      RunsWith s (.memFetch m) { m with mem := .fetch } (tableResult s m) ∧
      (byteInRange s.par byteAddress = false →
        exec (.memFetch m) s = .next (s.fail (.outOfRangeMem .memByteRead byteAddress))))

/-- What 40_register_file_and_buses says of one B-bus row: its code, and that it completes with the B operand the row
names, as it was at the start of the cycle. -/
def BBusRowRule (row : Mi → Instr) (b : Reg) (code : Nat) (operand : Regs → Word) : Prop :=
  ∀ (m : Mi) (s : State),
    encode (row m) &&& 0x00000000f = code ∧
    RunsWith s (row m) { m with b := b } (aluTable m.alu s.regs.h (operand s.regs))

/-- 40_register_file_and_buses section 3 (the code numbers are the spec's decision D8, log 12): the 11 B-bus rows. -/
def Obligations.BBusRowsReadTheirRegister : Prop :=
  BBusRowRule .bMdr .mdr 0 (fun x => x.mdr) ∧
  BBusRowRule .bPc .pc 1 (fun x => x.pc) ∧
  BBusRowRule .bMbr .mbr 2 (fun x => BitVec.ofInt 32 x.mbrByte.toInt) ∧
  BBusRowRule .bMbru .mbru 3 (fun x => BitVec.ofNat 32 x.mbrByte.toNat) ∧
  BBusRowRule .bSp .sp 4 (fun x => x.sp) ∧
  BBusRowRule .bLv .lv 5 (fun x => x.lv) ∧
  BBusRowRule .bCpp .cpp 6 (fun x => x.cpp) ∧
  BBusRowRule .bTos .tos 7 (fun x => x.tos) ∧
  BBusRowRule .bOpc .opc 8 (fun x => x.opc) ∧
  BBusRowRule .bMar .mar 9 (fun x => x.mar) ∧
  BBusRowRule .bH .h 10 (fun x => x.h)

/-- What 40_register_file_and_buses says of one C-bus row: its bit, that it completes, and that the register receives
the C-bus value unless the memory operation of the same cycle loads it. -/
def CBusRowRule (row : Mi → Instr) (q : Dest) (k : Mask → Mask) (bit : Nat) : Prop :=
  ∀ (m : Mi) (s : State),
    let m' := { m with mask := k m.mask }
    encode (row m) &&& bit = bit ∧
    RunsWith s (row m) m' (tableResult s m) ∧
    (∀ t : State, Completed s m' (tableResult s m) (tableCBus s m) t →
      ¬ (m.mem = .read ∧ q = .mdr) → ¬ (m.mem = .fetch ∧ q = .mbr) →
      t.regs.read (regOf q) = if q = .mbr then sext8 (lowByte (tableCBus s m)) else tableCBus s m)

/-- 40_register_file_and_buses section 4 (the members of the write-mask are the spec's decision D9, log 12): the ten C-bus
rows. -/
def Obligations.CBusRowsWriteTheirRegister : Prop :=
  CBusRowRule .cH .h (fun k => { k with h := true }) 0x000010000 ∧
  CBusRowRule .cOpc .opc (fun k => { k with opc := true }) 0x000008000 ∧
  CBusRowRule .cTos .tos (fun k => { k with tos := true }) 0x000004000 ∧
  CBusRowRule .cCpp .cpp (fun k => { k with cpp := true }) 0x000002000 ∧
  CBusRowRule .cLv .lv (fun k => { k with lv := true }) 0x000001000 ∧
  CBusRowRule .cSp .sp (fun k => { k with sp := true }) 0x000000800 ∧
  CBusRowRule .cPc .pc (fun k => { k with pc := true }) 0x000000400 ∧
  CBusRowRule .cMdr .mdr (fun k => { k with mdr := true }) 0x000000200 ∧
  CBusRowRule .cMar .mar (fun k => { k with mar := true }) 0x000000100 ∧
  CBusRowRule .cMbr .mbr (fun k => { k with mbr := true }) 0x000000080

/-- 30_encoding section 5, 60_exceptions section 1: the six illegal rows: from every state the instruction takes the
failure EncodingError with its cause and the word, and changes nothing but the status. -/
def Obligations.IllegalRowsTakeTheirEncodingError : Prop :=
  ∀ (raw : Nat) (s : State),
    let takes := fun (i : Instr) (cause : EncodingCause) =>
      ∃ t, exec i s = .next t ∧ t.status = .failed (.encodingError cause raw) ∧ SameButStatus s t ∧
        t.hookQueue = s.hookQueue ∧ t.hookTick = s.hookTick
    takes (.illegalShiftConflict raw) .shiftConflict ∧
    takes (.illegalBUnassigned11 raw) .bUnassigned ∧
    takes (.illegalBUnassigned12To15 raw) .bUnassigned ∧
    takes (.illegalMemConflictWriteRead raw) .memConflict ∧
    takes (.illegalMemConflictWriteFetch raw) .memConflict ∧
    takes (.illegalMemConflictReadFetch raw) .memConflict

/-! ### Registers -/

/-- 10_state R24: MBR and MBRU are the two views of one byte. -/
def Obligations.MbrAndMbruAreViewsOfOneByte : Prop :=
  ∀ x : Regs,
    x.read .mbr = sext8 x.mbrByte ∧ x.read .mbru = zext8 x.mbrByte ∧
    (∀ i, i < 8 → (x.read .mbr).getLsbD i = (x.read .mbru).getLsbD i) ∧
    (∀ i, 8 ≤ i → (x.read .mbru).getLsbD i = false) ∧
    (∀ i, 8 ≤ i → i < 32 → (x.read .mbr).getLsbD i = (x.read .mbr).getLsbD 7)

/-- 40_register_file_and_buses R112: a write of MBR keeps the low byte and both views follow, and nothing else
changes; the same when a FETCH writes it, and MBRU then reads the fetched byte; no write of one register other than
MBR changes MBRU. -/
def Obligations.WriteOfMbrUpdatesBothViews : Prop :=
  (∀ (x : Regs) (v : Word),
    (x.write .mbr v).read .mbr = BitVec.ofInt 32 (v.setWidth 8).toInt ∧
    (x.write .mbr v).read .mbru = BitVec.ofNat 32 (v.toNat % 256) ∧
    ∀ r : Reg, r ≠ .mbr → r ≠ .mbru → (x.write .mbr v).read r = x.read r) ∧
  (∀ (p : Params) (x1 x2 : Regs) (m m2 : Memory), fetchAccess p x1 m = .ok (x2, m2) →
    ∃ byte, getByte p m (x1.fetchAddress p) = .ok byte ∧ m2 = m ∧ x2.read .mbru = BitVec.ofNat 32 byte.toNat ∧
      x2.read .mbr = BitVec.ofInt 32 byte.toInt ∧ ∀ r : Reg, r ≠ .mbr → r ≠ .mbru → x2.read r = x1.read r) ∧
  (∀ (x : Regs) (q : Dest) (v : Word), q ≠ .mbr → (x.write q v).read .mbru = x.read .mbru)

/-- 40_register_file_and_buses R111, 10_state R25: a write of an ordinary register is what a later read of it returns,
and changes no other register; a write of MBR changes what MBR and MBRU read and nothing else. -/
def Obligations.WriteOfAnOrdinaryRegisterChangesItAlone : Prop :=
  ∀ (x : Regs) (q : Dest) (v : Word),
    (q ≠ .mbr → (x.write q v).read (regOf q) = v ∧ ∀ r : Reg, r ≠ regOf q → (x.write q v).read r = x.read r) ∧
    (∀ r : Reg, r ≠ .mbr → r ≠ .mbru → (x.write .mbr v).read r = x.read r)

/-- 10_state section 2 and 45_execution_cycle section 3: over all instructions, a step changes what a register reads only
if the write-mask of the executed word names it (MBRU by naming MBR), or the word reads into MDR, or fetches into MBR. -/
def Obligations.RegistersChangeOnlyWhereTheWordSaysSo : Prop :=
  ∀ (s t : State) (q : Reg), step s = .next t → t.regs.read q ≠ s.regs.read q →
    ∃ raw m, fetchRaw s = .ok raw ∧ decodeMi s.par.nextAddrWidth raw = .ok m ∧ hookAnswer s = true ∧
      ((∃ d : Dest, m.mask.names d = true ∧ (regOf d = q ∨ (d = .mbr ∧ q = .mbru))) ∨
       (m.mem = .read ∧ q = .mdr) ∨ (m.mem = .fetch ∧ (q = .mbr ∨ q = .mbru)))

/-- The B field is checked and read but has no effect when ENB is 0 (93 section 5; 40_register_file_and_buses R115):
two words that differ in it do the same but for the word the event names. -/
def Obligations.UnusedBFieldHasNoEffect : Prop :=
  ∀ (m : Mi) (b : Reg) (s t : State), m.alu.enb = false → exec (.mi m) s = .next t →
    ∃ t', exec (.mi { m with b := b }) s = .next t' ∧ t'.regs = t.regs ∧ t'.mem = t.mem ∧ t'.upc = t.upc ∧
      t'.status = t.status ∧ t'.ticks.length = t.ticks.length

/-- 44_next_address R200: a designated bit that NEXT_ADDRESS already has cannot be cleared or changed: both outcomes go
to the same address; and the bits no flag is ORed into pass through. -/
def Obligations.FlagsAreOredIntoTheNextAddress : Prop :=
  ∀ (a : Nat) (j : Jump) (p : Params) (n z : Bool) (i : Nat),
    (nextUpc a j p n z).testBit i =
      (a.testBit i || (j.isJamn && n && i == p.jamnBit) || (j.isJamz && z && i == p.jamzBit)) ∧
    (a.testBit p.jamnBit = true → a.testBit p.jamzBit = true → nextUpc a j p n z = a)

/-! ### Memory -/

/-- 20_memory R54, R55: getWord returns the word or fails and changes nothing; after setWord the word reads as stored
and every other word as before; out of range each fails with its cause and the address. -/
def Obligations.WordsReadBackAsStored : Prop :=
  ∀ (p : Params) (m : Memory) (a v : Word), m.wf = true →
    (wordInRange p a = true → getWord p m a = .ok (m.word p.byteOrder a.toNat) ∧
      ∃ m2, setWord p m a v = .ok m2 ∧ getWord p m2 a = .ok v ∧ ∀ a' : Word, a' ≠ a → getWord p m2 a' = getWord p m a') ∧
    (wordInRange p a = false → getWord p m a = .error (.outOfRangeMem .memWordRead a) ∧
      setWord p m a v = .error (.outOfRangeMem .memWordWrite a))

/-- 20_memory R56: getByte is `(M[widx(a)] >>u lane(off(a)))[7:0]` in range and fails otherwise. -/
def Obligations.GetByteSelectsTheLane : Prop :=
  ∀ (p : Params) (m : Memory) (a : Word),
    (byteInRange p a = true →
      getByte p m a = .ok ((m.word p.byteOrder (widx a).toNat >>> lane p.byteOrder (off a)).setWidth 8)) ∧
    (byteInRange p a = false → getByte p m a = .error (.outOfRangeMem .memByteRead a))

/-- 20_memory section 3 (setByte is the spec's decision D27): setByte replaces one lane with the low 8 bits of the
value, leaves the rest of the word and every other word, and getByte then returns that byte. -/
def Obligations.SetByteReplacesOneLane : Prop :=
  ∀ (p : Params) (m : Memory) (a v : Word), m.wf = true →
    (byteInRange p a = true →
      ∃ m2, setByte p m a v = .ok m2 ∧ m2.wf = true ∧ getByte p m2 a = .ok (v.setWidth 8) ∧
        m2.word p.byteOrder (widx a).toNat =
          (m.word p.byteOrder (widx a).toNat &&& ~~~((0x000000ff : Word) <<< lane p.byteOrder (off a)))
            ||| ((v.setWidth 8).setWidth 32 <<< lane p.byteOrder (off a)) ∧
        ∀ w, w ≠ (widx a).toNat → m2.word p.byteOrder w = m.word p.byteOrder w) ∧
    (byteInRange p a = false → setByte p m a v = .error (.outOfRangeMem .memByteWrite a))

/-- 20_memory R59 (derived there): the bytes of a word just stored, in the lanes of either byte order. -/
def Obligations.BytesOfAStoredWord : Prop :=
  ∀ (p : Params) (m m2 : Memory) (w k : Nat) (v : Word), m.wf = true → k < 4 → 4 * w + k < 2 ^ 31 →
    setWord p m (BitVec.ofNat 32 w) v = .ok m2 →
    getByte p m2 (BitVec.ofNat 32 (4 * w + k)) = .ok ((v >>> lane p.byteOrder k).setWidth 8) ∧
    lane p.byteOrder k = (match p.byteOrder with | .big => 8 * (3 - k) | .little => 8 * k)

/-- 20_memory sections 2 (signed addresses are the spec's decision D5): an address with bit 31 set is in no memory: all
four primitives fail. -/
def Obligations.NegativeAddressesAreOutOfRange : Prop :=
  ∀ (p : Params) (m : Memory) (a v : Word), a.getLsbD 31 = true →
    getWord p m a = .error (.outOfRangeMem .memWordRead a) ∧
    setWord p m a v = .error (.outOfRangeMem .memWordWrite a) ∧
    getByte p m a = .error (.outOfRangeMem .memByteRead a) ∧
    setByte p m a v = .error (.outOfRangeMem .memByteWrite a)

/-- 43_memory_ops R195 (derived there) and 20_memory section 7: over all instructions, a step changes a byte of memory
only by a WRITE, only inside the word at the MAR the C-bus writes left, and that word is inside the memory. -/
def Obligations.MemoryChangesOnlyInTheWordWritten : Prop :=
  ∀ (s t : State) (a : Nat), s.Inv → step s = .next t → t.mem.read a ≠ s.mem.read a →
    ∃ raw m, fetchRaw s = .ok raw ∧ decodeMi s.par.nextAddrWidth raw = .ok m ∧ m.mem = .write ∧
      a / 4 = (afterCBus m.mask (tableCBus s m) s.regs .mar).toNat ∧ a / 4 < s.par.memWords ∧
      t.mem.word s.par.byteOrder (a / 4) = afterCBus m.mask (tableCBus s m) s.regs .mdr

/-- 70_reset_and_hazards section 1: loading a memory word, or a control-store entry, sets that one alone and keeps the
invariant; a word outside the memory is not there to load. What nothing has set stays what it was, which is a free value
(92_eei_decisions D18; log 4, log 5); that loading is these two operations is the model's choice (log 17). -/
def Obligations.LoadingSetsOneWordAndOneEntry : Prop :=
  ∀ s : State,
    (∀ (w : Nat) (v : Word), s.Inv → w < s.par.memWords →
      (s.loadWord w v).Inv ∧ s.loadWord w v = { s with mem := (s.loadWord w v).mem } ∧
      (∀ a, (s.loadWord w v).mem.read a =
        if a / 4 = w then (v >>> lane s.par.byteOrder (a % 4)).setWidth 8 else s.mem.read a) ∧
      ∀ w', (s.loadWord w v).mem.word s.par.byteOrder w' = if w' = w then v else s.mem.word s.par.byteOrder w') ∧
    (∀ (w : Nat) (v : Word), s.par.memWords ≤ w → s.loadWord w v = s) ∧
    (∀ u x : Nat, s.loadEntry u x = { s with cs := (s.loadEntry u x).cs } ∧ (s.Inv → (s.loadEntry u x).Inv) ∧
      ∀ u', (s.loadEntry u x).cs.entry s.par u' = if u' = u then x else s.cs.entry s.par u')
end

