-- ==== Sys2Proof/Laws/Encoding.lean ====
section
/-! SUPPORT. The encoding bit by bit (spec 30_encoding R81, R96, R99): what each bit of an encoded record is, the field
under each mask of the opcode table, and everything a successful `decodeMi` says of its word. -/

namespace Sys2Proof

/-! ### Codes of one field -/

/-- A select code names its register (30_encoding R90). -/
theorem Reg.ofCode_code (r : Reg) : Reg.ofCode r.code = some r := by cases r <;> rfl

theorem Reg.code_of_ofCode {n : Nat} {r : Reg} (h : Reg.ofCode n = some r) : r.code = n := by
  unfold Reg.ofCode at h; split at h <;> simp at h <;> subst h <;> rfl

/-- The codes 11 and above are unassigned (30_encoding R87). -/
theorem Reg.ofCode_unassigned {n : Nat} (h : 11 ≤ n) : Reg.ofCode n = none := by
  unfold Reg.ofCode; split <;> first | rfl | omega

theorem Reg.ofCode_assigned {n : Nat} (h : n < 11) : ∃ r, Reg.ofCode n = some r := by
  have hn : n = 0 ∨ n = 1 ∨ n = 2 ∨ n = 3 ∨ n = 4 ∨ n = 5 ∨ n = 6 ∨ n = 7 ∨ n = 8 ∨ n = 9 ∨ n = 10 := by omega
  rcases hn with rfl | rfl | rfl | rfl | rfl | rfl | rfl | rfl | rfl | rfl | rfl <;> exact ⟨_, rfl⟩

theorem Reg.code_lt (r : Reg) : r.code < 16 := by cases r <;> decide

theorem Reg.testBit_code (r : Reg) {i : Nat} (h : 4 ≤ i) : r.code.testBit i = false :=
  Nat.testBit_lt_two_pow (lt_of_lt_of_le r.code_lt (by simpa using Nat.pow_le_pow_right (n := 2) (by omega) h))

theorem Shift.ofBits_bits (k : Shift) : Shift.ofBits k.isSll8 k.isSra1 = some k := by cases k <;> rfl

theorem Shift.bits_of_ofBits {a b : Bool} {k : Shift} (h : Shift.ofBits a b = some k) :
    k.isSll8 = a ∧ k.isSra1 = b := by
  cases a <;> cases b <;> simp [Shift.ofBits] at h <;> subst h <;> exact ⟨rfl, rfl⟩

theorem MemOp.ofBits_bits (k : MemOp) : MemOp.ofBits k.isWrite k.isRead k.isFetch = some k := by cases k <;> rfl

theorem MemOp.bits_of_ofBits {a b c : Bool} {k : MemOp} (h : MemOp.ofBits a b c = some k) :
    k.isWrite = a ∧ k.isRead = b ∧ k.isFetch = c := by
  cases a <;> cases b <;> cases c <;> simp [MemOp.ofBits] at h <;> subst h <;> exact ⟨rfl, rfl, rfl⟩

theorem Jump.ofBits_bits (k : Jump) : Jump.ofBits k.isJamn k.isJamz = k := by cases k <;> rfl

theorem Jump.bits_of_ofBits (a b : Bool) : (Jump.ofBits a b).isJamn = a ∧ (Jump.ofBits a b).isJamz = b := by
  cases a <;> cases b <;> exact ⟨rfl, rfl⟩

/-! ### Bits of the encoded record -/

theorem testBit_bitAt (b : Bool) (n i : Nat) : (bitAt b n).testBit i = (b && i == n) := by
  cases b
  · simp [bitAt]
  · simp only [bitAt, Bool.toNat_true, Nat.one_shiftLeft, Nat.testBit_two_pow]
    by_cases h : n = i <;> simp [h]
    exact fun h' => h h'.symm

theorem bitAt_lt (b : Bool) (n : Nat) (h : n < 25) : bitAt b n < 2 ^ 25 := by
  cases b <;> simp only [bitAt, Bool.toNat_true, Bool.toNat_false, Nat.zero_shiftLeft, Nat.one_shiftLeft]
  · decide
  · exact Nat.pow_lt_pow_right (by omega) h

/-- The control bits of a record by their number, above the B field (30_encoding R81). -/
def Mi.controlBit (m : Mi) : Nat → Bool
  | 4 => m.mem.isFetch | 5 => m.mem.isRead | 6 => m.mem.isWrite
  | 7 => m.mask.mbr | 8 => m.mask.mar | 9 => m.mask.mdr | 10 => m.mask.pc | 11 => m.mask.sp | 12 => m.mask.lv
  | 13 => m.mask.cpp | 14 => m.mask.tos | 15 => m.mask.opc | 16 => m.mask.h
  | 17 => m.alu.inc | 18 => m.alu.inva | 19 => m.alu.enb | 20 => m.alu.ena
  | 21 => m.shift.isSra1 | 22 => m.shift.isSll8 | 23 => m.jump.isJamz | 24 => m.jump.isJamn
  | _ => false

/-- What holds of each of the numbers 4 to 24 holds of all of them. -/
theorem forall_controlBit {P : Nat → Prop} (h : P 4 ∧ P 5 ∧ P 6 ∧ P 7 ∧ P 8 ∧ P 9 ∧ P 10 ∧ P 11 ∧ P 12 ∧ P 13 ∧ P 14 ∧
    P 15 ∧ P 16 ∧ P 17 ∧ P 18 ∧ P 19 ∧ P 20 ∧ P 21 ∧ P 22 ∧ P 23 ∧ P 24) (i : Nat) (h4 : 4 ≤ i) (h25 : i < 25) :
    P i := by
  obtain ⟨_, _, _, _, _, _, _, _, _, _, _, _, _, _, _, _, _, _, _, _, _⟩ := h
  have hi : i = 4 ∨ i = 5 ∨ i = 6 ∨ i = 7 ∨ i = 8 ∨ i = 9 ∨ i = 10 ∨ i = 11 ∨ i = 12 ∨ i = 13 ∨ i = 14 ∨ i = 15 ∨
    i = 16 ∨ i = 17 ∨ i = 18 ∨ i = 19 ∨ i = 20 ∨ i = 21 ∨ i = 22 ∨ i = 23 ∨ i = 24 := by omega
  rcases hi with rfl | rfl | rfl | rfl | rfl | rfl | rfl | rfl | rfl | rfl | rfl | rfl | rfl | rfl | rfl | rfl | rfl |
    rfl | rfl | rfl | rfl <;> assumption

theorem testBit_controlBits_sum (m : Mi) (i : Nat) (h : 4 ≤ i) : m.controlBits.testBit i =
    (m.jump.isJamn && i == 24 || m.jump.isJamz && i == 23 || m.shift.isSll8 && i == 22 || m.shift.isSra1 && i == 21
      || m.alu.ena && i == 20 || m.alu.enb && i == 19 || m.alu.inva && i == 18 || m.alu.inc && i == 17
      || m.mask.h && i == 16 || m.mask.opc && i == 15 || m.mask.tos && i == 14 || m.mask.cpp && i == 13
      || m.mask.lv && i == 12 || m.mask.sp && i == 11 || m.mask.pc && i == 10 || m.mask.mdr && i == 9
      || m.mask.mar && i == 8 || m.mask.mbr && i == 7 || m.mem.isWrite && i == 6 || m.mem.isRead && i == 5
      || m.mem.isFetch && i == 4) := by
  simp only [Mi.controlBits, Nat.testBit_or, testBit_bitAt, Reg.testBit_code _ h, Bool.or_false]

theorem controlBits_lt (m : Mi) : m.controlBits < 2 ^ 25 := by
  apply Nat.lt_pow_two_of_testBit
  intro i hi
  rw [testBit_controlBits_sum _ _ (by omega)]
  have hne : ∀ n, n < 25 → (i == n) = false := fun n hn => by simp; omega
  simp [hne]

/-- A bit of the encoded word: a control bit, or a bit of NEXT_ADDRESS (30_encoding R81, R99). -/
theorem testBit_encodeMi (m : Mi) (i : Nat) :
    (encodeMi m).testBit i = if i < 25 then m.controlBits.testBit i else m.next.testBit (i - 25) := by
  simp only [encodeMi, Nat.testBit_or, Nat.testBit_shiftLeft]
  split
  · rw [decide_eq_false (by omega)]; simp
  · have hlt := lt_of_lt_of_le (controlBits_lt m) (Nat.pow_le_pow_right (n := 2) (by omega) (by omega : 25 ≤ i))
    rw [decide_eq_true (by omega), Nat.testBit_lt_two_pow hlt]; simp

theorem testBit_encodeMi_control (m : Mi) : ∀ i, 4 ≤ i → i < 25 → (encodeMi m).testBit i = m.controlBit i := by
  intro i h4 h25
  rw [testBit_encodeMi, if_pos h25, testBit_controlBits_sum _ _ h4]
  revert h25
  revert h4
  revert i
  refine forall_controlBit ?_
  simp [Mi.controlBit]

/-- NEXT_ADDRESS of the encoded word. -/
theorem encodeMi_shiftRight (m : Mi) : encodeMi m >>> 25 = m.next := by
  apply Nat.eq_of_testBit_eq
  intro i
  rw [Nat.testBit_shiftRight, testBit_encodeMi, if_neg (by omega)]
  congr 1; omega

/-- The B field of the encoded word. -/
theorem encodeMi_mod (m : Mi) : encodeMi m % 16 = m.b.code := by
  apply Nat.eq_of_testBit_eq
  intro i
  rw [show (16 : Nat) = 2 ^ 4 by rfl, Nat.testBit_mod_two_pow, testBit_encodeMi]
  by_cases hi : i < 4
  · rw [if_pos (by omega)]
    simp only [Mi.controlBits, Nat.testBit_or, testBit_bitAt]
    rcases (by omega : i = 0 ∨ i = 1 ∨ i = 2 ∨ i = 3) with rfl | rfl | rfl | rfl <;> simp
  · rw [m.b.testBit_code (by omega)]; simp [hi]

/-- A record whose next address fits encodes to a word of MI_WIDTH bits (30_encoding R80, R83). -/
theorem encodeMi_lt {width : Nat} {m : Mi} (h : m.wf width = true) : encodeMi m < 2 ^ (25 + width) := by
  simp only [Mi.wf, decide_eq_true_eq] at h
  apply Nat.or_lt_two_pow
  · rw [Nat.shiftLeft_eq, Nat.pow_add, Nat.mul_comm]; exact Nat.mul_lt_mul_of_pos_left h (by decide)
  · exact lt_of_lt_of_le (controlBits_lt m) (Nat.pow_le_pow_right (by omega) (by omega))

/-! ### The encoded word under the masks of the opcode table (30_encoding R100) -/

theorem and_mask_of_bits {m : Mi} {mask bits : Nat} (hm : mask < 2 ^ 25) (hb : bits < 2 ^ 25)
    (hl : ∀ i, i < 4 → mask.testBit i = false ∧ bits.testBit i = false)
    (h : ∀ i, 4 ≤ i → i < 25 → (m.controlBit i && mask.testBit i) = bits.testBit i) : encodeMi m &&& mask = bits := by
  apply Nat.eq_of_testBit_eq
  intro i
  rw [Nat.testBit_and]
  by_cases hi : i < 25
  · by_cases h4 : 4 ≤ i
    · rw [testBit_encodeMi_control m i h4 hi]; exact h i h4 hi
    · rw [(hl i (by omega)).1, (hl i (by omega)).2, Bool.and_false]
  · have hp : 2 ^ 25 ≤ 2 ^ i := Nat.pow_le_pow_right (by omega) (by omega)
    rw [Nat.testBit_lt_two_pow (lt_of_lt_of_le hm hp), Nat.testBit_lt_two_pow (lt_of_lt_of_le hb hp), Bool.and_false]

theorem forall_lowBit {P : Nat → Prop} (h : P 0 ∧ P 1 ∧ P 2 ∧ P 3) (i : Nat) (hi : i < 4) : P i := by
  obtain ⟨_, _, _, _⟩ := h
  rcases (by omega : i = 0 ∨ i = 1 ∨ i = 2 ∨ i = 3) with rfl | rfl | rfl | rfl <;> assumption

/-- The ALU field (30_encoding R92). -/
theorem encodeMi_and_alu (m : Mi) : encodeMi m &&& 0x0001e0000 =
    bitAt m.alu.ena 20 ||| bitAt m.alu.enb 19 ||| bitAt m.alu.inva 18 ||| bitAt m.alu.inc 17 := by
  have hM : ∀ i, i < 25 → Nat.testBit 0x0001e0000 i = (i == 20 || i == 19 || i == 18 || i == 17) := by decide
  refine and_mask_of_bits (by decide) ?_ (forall_lowBit ?_) (forall_controlBit ?_)
  · exact Nat.or_lt_two_pow (Nat.or_lt_two_pow (Nat.or_lt_two_pow (bitAt_lt _ _ (by decide)) (bitAt_lt _ _ (by decide))) (bitAt_lt _ _ (by decide))) (bitAt_lt _ _ (by decide))
  · simp [hM, testBit_bitAt, -Nat.testBit_zero]
  · simp [hM, testBit_bitAt, Mi.controlBit]

/-- The shifter field (30_encoding R93). -/
theorem encodeMi_and_shift (m : Mi) : encodeMi m &&& 0x000600000 =
    bitAt m.shift.isSll8 22 ||| bitAt m.shift.isSra1 21 := by
  have hM : ∀ i, i < 25 → Nat.testBit 0x000600000 i = (i == 22 || i == 21) := by decide
  refine and_mask_of_bits (by decide) ?_ (forall_lowBit ?_) (forall_controlBit ?_)
  · exact Nat.or_lt_two_pow (bitAt_lt _ _ (by decide)) (bitAt_lt _ _ (by decide))
  · simp [hM, testBit_bitAt, -Nat.testBit_zero]
  · simp [hM, testBit_bitAt, Mi.controlBit]

/-- The memory field (30_encoding R94). -/
theorem encodeMi_and_mem (m : Mi) : encodeMi m &&& 0x000000070 =
    bitAt m.mem.isWrite 6 ||| bitAt m.mem.isRead 5 ||| bitAt m.mem.isFetch 4 := by
  have hM : ∀ i, i < 25 → Nat.testBit 0x000000070 i = (i == 6 || i == 5 || i == 4) := by decide
  refine and_mask_of_bits (by decide) ?_ (forall_lowBit ?_) (forall_controlBit ?_)
  · exact Nat.or_lt_two_pow (Nat.or_lt_two_pow (bitAt_lt _ _ (by decide)) (bitAt_lt _ _ (by decide))) (bitAt_lt _ _ (by decide))
  · simp [hM, testBit_bitAt, -Nat.testBit_zero]
  · simp [hM, testBit_bitAt, Mi.controlBit]

/-- The jump field (30_encoding R95). -/
theorem encodeMi_and_jump (m : Mi) : encodeMi m &&& 0x001800000 =
    bitAt m.jump.isJamn 24 ||| bitAt m.jump.isJamz 23 := by
  have hM : ∀ i, i < 25 → Nat.testBit 0x001800000 i = (i == 24 || i == 23) := by decide
  refine and_mask_of_bits (by decide) ?_ (forall_lowBit ?_) (forall_controlBit ?_)
  · exact Nat.or_lt_two_pow (bitAt_lt _ _ (by decide)) (bitAt_lt _ _ (by decide))
  · simp [hM, testBit_bitAt, -Nat.testBit_zero]
  · simp [hM, testBit_bitAt, Mi.controlBit]

/-- The B field (30_encoding R90). -/
theorem encodeMi_and_b (m : Mi) : encodeMi m &&& 0x00000000f = m.b.code := by
  rw [← encodeMi_mod]; exact Nat.and_two_pow_sub_one_eq_mod (encodeMi m) 4

theorem encodeMi_and_controlBit (m : Mi) (n : Nat) (h4 : 4 ≤ n) (h25 : n < 25) :
    encodeMi m &&& 2 ^ n = bitAt (m.controlBit n) n := by
  apply Nat.eq_of_testBit_eq
  intro i
  rw [Nat.testBit_and, testBit_bitAt, Nat.testBit_two_pow]
  by_cases h : n = i
  · subst h; rw [testBit_encodeMi_control m n h4 h25]; simp
  · have hne : (i == n) = false := by simp; omega
    simp [h, hne]

/-- A bit of the write-mask (30_encoding R91). -/
theorem encodeMi_and_c (m : Mi) (q : Dest) :
    encodeMi m &&& (m.cRow q).pattern.mask = if m.mask.names q then (m.cRow q).pattern.mask else 0 := by
  cases q
  · refine (encodeMi_and_controlBit m 16 (by decide) (by decide)).trans ?_
    show bitAt m.mask.h 16 = if m.mask.h then _ else 0
    cases m.mask.h <;> rfl
  · refine (encodeMi_and_controlBit m 15 (by decide) (by decide)).trans ?_
    show bitAt m.mask.opc 15 = if m.mask.opc then _ else 0
    cases m.mask.opc <;> rfl
  · refine (encodeMi_and_controlBit m 14 (by decide) (by decide)).trans ?_
    show bitAt m.mask.tos 14 = if m.mask.tos then _ else 0
    cases m.mask.tos <;> rfl
  · refine (encodeMi_and_controlBit m 13 (by decide) (by decide)).trans ?_
    show bitAt m.mask.cpp 13 = if m.mask.cpp then _ else 0
    cases m.mask.cpp <;> rfl
  · refine (encodeMi_and_controlBit m 12 (by decide) (by decide)).trans ?_
    show bitAt m.mask.lv 12 = if m.mask.lv then _ else 0
    cases m.mask.lv <;> rfl
  · refine (encodeMi_and_controlBit m 11 (by decide) (by decide)).trans ?_
    show bitAt m.mask.sp 11 = if m.mask.sp then _ else 0
    cases m.mask.sp <;> rfl
  · refine (encodeMi_and_controlBit m 10 (by decide) (by decide)).trans ?_
    show bitAt m.mask.pc 10 = if m.mask.pc then _ else 0
    cases m.mask.pc <;> rfl
  · refine (encodeMi_and_controlBit m 9 (by decide) (by decide)).trans ?_
    show bitAt m.mask.mdr 9 = if m.mask.mdr then _ else 0
    cases m.mask.mdr <;> rfl
  · refine (encodeMi_and_controlBit m 8 (by decide) (by decide)).trans ?_
    show bitAt m.mask.mar 8 = if m.mask.mar then _ else 0
    cases m.mask.mar <;> rfl
  · refine (encodeMi_and_controlBit m 7 (by decide) (by decide)).trans ?_
    show bitAt m.mask.mbr 7 = if m.mask.mbr then _ else 0
    cases m.mask.mbr <;> rfl

/-! ### Instructions and their words -/

theorem encode_of_record {i : Instr} {m : Mi} (h : i.record = some m) : encode i = encodeMi m := by
  simp only [encode, h]

theorem encode_illegal {i : Instr} {raw : Nat} (h : i.illegalWord = some raw) : encode i = raw := by
  cases i <;> simp only [Instr.illegalWord, Option.some.injEq, reduceCtorEq] at h <;> subst h <;> rfl

theorem illegalWord_of_record {i : Instr} {m : Mi} (h : i.record = some m) : i.illegalWord = none := by
  cases i <;> simp [Instr.record] at h <;> rfl

/-- Everything a successful decode says of its word (30_encoding R96, R97). -/
theorem decodeMi_ok {width raw : Nat} {m : Mi} (h : decodeMi width raw = .ok m) :
    raw < 2 ^ (25 + width) ∧ Shift.ofBits (raw.testBit 22) (raw.testBit 21) = some m.shift ∧
    Reg.ofCode (raw % 16) = some m.b ∧
    MemOp.ofBits (raw.testBit 6) (raw.testBit 5) (raw.testBit 4) = some m.mem ∧ m.next = raw >>> 25 ∧
    m.jump = Jump.ofBits (raw.testBit 24) (raw.testBit 23) ∧
    m.alu = ⟨raw.testBit 20, raw.testBit 19, raw.testBit 18, raw.testBit 17⟩ ∧
    m.mask = ⟨raw.testBit 16, raw.testBit 15, raw.testBit 14, raw.testBit 13, raw.testBit 12, raw.testBit 11,
      raw.testBit 10, raw.testBit 9, raw.testBit 8, raw.testBit 7⟩ := by
  unfold decodeMi at h
  split at h
  · cases h
  · split at h
    · cases h
    · split at h
      · cases h
      · split at h
        · cases h
        · cases h
          refine ⟨by omega, ?_, ?_, ?_, rfl, rfl, rfl, rfl⟩ <;> assumption

end Sys2Proof
end

