-- ==== Sys2Proof/Laws/Memory.lean ====
section
/-! SUPPORT. Memory: a read after a write, the canonical form and the bounds kept by every operation, words and their
bytes (spec 20_memory R51, R55, R57, R59); the control store's entries after a load. -/

namespace Sys2Proof.Machine

/-! ### Cells -/

/-- Nothing is set below the first entry. -/
theorem Memory.lookup_below {low a : Nat} {m : Memory} (h : Memory.risesFrom low m = true) (ha : a < low) :
    m.lookup a = none := by
  induction m generalizing low with
  | nil => rfl
  | cons c rest ih =>
    obtain ⟨k, u⟩ := c
    simp only [Memory.risesFrom, Bool.and_eq_true, decide_eq_true_eq] at h
    simp only [Memory.lookup, if_neg (by omega : ¬ a = k)]
    exact ih h.2 (by omega)

theorem Memory.risesFrom_write {low : Nat} {m : Memory} (a : Nat) (v : Byte)
    (h : Memory.risesFrom low m = true) (ha : low ≤ a) : Memory.risesFrom low (m.write a v) = true := by
  induction m generalizing low with
  | nil => simpa [Memory.write, Memory.risesFrom] using ha
  | cons c rest ih =>
    obtain ⟨k, u⟩ := c
    simp only [Memory.risesFrom, Bool.and_eq_true, decide_eq_true_eq] at h
    simp only [Memory.write]
    split
    · simp only [Memory.risesFrom, Bool.and_eq_true, decide_eq_true_eq]
      exact ⟨ha, by omega, h.2⟩
    · split
      · rename_i hak; subst hak
        simp only [Memory.risesFrom, Bool.and_eq_true, decide_eq_true_eq]
        exact h
      · simp only [Memory.risesFrom, Bool.and_eq_true, decide_eq_true_eq]
        exact ⟨h.1, ih h.2 (by omega)⟩

/-- What is set after a byte is set, in any memory. -/
theorem Memory.lookup_write (m : Memory) (a : Nat) (v : Byte) (b : Nat) :
    (m.write a v).lookup b = if b = a then some v else m.lookup b := by
  induction m with
  | nil => simp only [Memory.write, Memory.lookup]
  | cons c rest ih =>
    obtain ⟨k, u⟩ := c
    simp only [Memory.write]
    split
    · simp only [Memory.lookup]
    · split
      · rename_i hak; subst hak
        simp only [Memory.lookup]
        by_cases hb : b = a <;> simp [hb]
      · rename_i hne
        simp only [Memory.lookup, ih]
        by_cases hb : b = k
        · subst hb; simp [Ne.symm hne]
        · simp [hb]

/-- Canonical memories with the same set bytes are equal data. -/
theorem Memory.ext_from {low : Nat} {m m' : Memory} (h : Memory.risesFrom low m = true)
    (h' : Memory.risesFrom low m' = true) (heq : ∀ a, m.lookup a = m'.lookup a) : m = m' := by
  induction m generalizing low m' with
  | nil =>
    cases m' with
    | nil => rfl
    | cons c rest => have := heq c.1; simp [Memory.lookup] at this
  | cons c rest ih =>
    obtain ⟨k, u⟩ := c
    cases m' with
    | nil => have := heq k; simp [Memory.lookup] at this
    | cons c' rest' =>
      obtain ⟨k', u'⟩ := c'
      simp only [Memory.risesFrom, Bool.and_eq_true, decide_eq_true_eq] at h h'
      have hk : k = k' := by
        rcases Nat.lt_trichotomy k k' with hlt | he | hlt
        · have h1 := heq k
          simp [Memory.lookup, Nat.ne_of_lt hlt, Memory.lookup_below h'.2 (by omega : k < k' + 1)] at h1
        · exact he
        · have h1 := heq k'
          simp [Memory.lookup, Nat.ne_of_lt hlt, Memory.lookup_below h.2 (by omega : k' < k + 1)] at h1
      subst hk
      have hu : u = u' := by simpa [Memory.lookup] using heq k
      subst hu
      rw [ih h.2 h'.2]
      intro a
      by_cases ha : a = k
      · subst ha
        rw [Memory.lookup_below h.2 (by omega), Memory.lookup_below h'.2 (by omega)]
      · simpa [Memory.lookup, ha] using heq a

/-- The canonical form decides equality: equal memories are equal data. -/
theorem Memory.ext {m m' : Memory} (h : m.wf = true) (h' : m'.wf = true) (heq : ∀ a, m.lookup a = m'.lookup a) :
    m = m' := Memory.ext_from h h' heq

/-- Reading a byte after storing one (spec 20_memory R57, R62). -/
theorem Memory.read_write {m : Memory} (h : m.wf = true) (a : Nat) (v : Byte) (b : Nat) :
    (m.write a v).read b = if b = a then v else m.read b := by
  have _ := h
  simp only [Memory.read, Memory.lookup_write]
  split <;> rfl

/-- Storing a byte keeps the canonical form. -/
theorem Memory.wf_write {m : Memory} (h : m.wf = true) (a : Nat) (v : Byte) : (m.write a v).wf = true :=
  Memory.risesFrom_write a v h (Nat.zero_le a)

theorem Memory.within_write {words : Nat} {m : Memory} {a : Nat} (v : Byte) (h : m.within words = true)
    (ha : a < 4 * words) : (m.write a v).within words = true := by
  simp only [Memory.within] at *
  induction m with
  | nil => simpa [Memory.write] using ha
  | cons c rest ih =>
    obtain ⟨k, u⟩ := c
    simp only [List.all_cons, Bool.and_eq_true, decide_eq_true_eq] at h
    simp only [Memory.write]
    split
    · simp only [List.all_cons, Bool.and_eq_true, decide_eq_true_eq]; exact ⟨ha, h⟩
    · split <;> simp only [List.all_cons, Bool.and_eq_true, decide_eq_true_eq]
      · exact ⟨ha, h.2⟩
      · exact ⟨h.1, ih h.2⟩

/-- The empty memory is canonical and inside every bound: reset lists nothing. -/
theorem Memory.wf_nil : Memory.wf [] = true := rfl

theorem Memory.within_nil (words : Nat) : Memory.within words [] = true := rfl

/-! ### Words -/

theorem Memory.wf_storeWord {m : Memory} (h : m.wf = true) (o : ByteOrder) (w : Nat) (v : Word) :
    (m.storeWord o w v).wf = true := by
  simp only [Memory.storeWord]
  exact Memory.wf_write (Memory.wf_write (Memory.wf_write (Memory.wf_write h _ _) _ _) _ _) _ _

theorem Memory.within_storeWord {words : Nat} {m : Memory} (o : ByteOrder) {w : Nat} (v : Word)
    (h : m.within words = true) (hw : w < words) : (m.storeWord o w v).within words = true := by
  simp only [Memory.storeWord]
  exact Memory.within_write _ (Memory.within_write _ (Memory.within_write _ (Memory.within_write _ h (by omega))
    (by omega)) (by omega)) (by omega)

/-- Every byte after a word is stored: the four bytes of the word by their lanes, every other byte as before (spec
20_memory R55, R59). -/
theorem Memory.read_storeWord {m : Memory} (h : m.wf = true) (o : ByteOrder) (w : Nat) (v : Word) (a : Nat) :
    (m.storeWord o w v).read a = if a / 4 = w then byteOfWord o v (a % 4) else m.read a := by
  have h1 := Memory.wf_write h (4 * w) (byteOfWord o v 0)
  have h2 := Memory.wf_write h1 (4 * w + 1) (byteOfWord o v 1)
  have h3 := Memory.wf_write h2 (4 * w + 2) (byteOfWord o v 2)
  simp only [Memory.storeWord, Memory.read_write h3, Memory.read_write h2, Memory.read_write h1, Memory.read_write h]
  by_cases hw : a / 4 = w
  · simp only [hw, if_true]
    have hr : a % 4 = 0 ∨ a % 4 = 1 ∨ a % 4 = 2 ∨ a % 4 = 3 := by omega
    rcases hr with hr | hr | hr | hr <;> simp only [hr]
    · rw [if_neg (by omega), if_neg (by omega), if_neg (by omega), if_pos (by omega)]
    · rw [if_neg (by omega), if_neg (by omega), if_pos (by omega)]
    · rw [if_neg (by omega), if_pos (by omega)]
    · rw [if_pos (by omega)]
  · simp only [hw, if_false]
    rw [if_neg (by omega), if_neg (by omega), if_neg (by omega), if_neg (by omega)]

/-- The byte of a lane of a word made of four bytes (spec 20_memory R56, R58). -/
theorem byteOfWord_word (o : ByteOrder) (m : Memory) (w k : Nat) (hk : k < 4) :
    byteOfWord o (m.word o w) k = m.read (4 * w + k) := by
  have hr : k = 0 ∨ k = 1 ∨ k = 2 ∨ k = 3 := by omega
  rcases hr with rfl | rfl | rfl | rfl <;> cases o <;>
    (apply BitVec.eq_of_getLsbD_eq; intro i hi
     have : i = 0 ∨ i = 1 ∨ i = 2 ∨ i = 3 ∨ i = 4 ∨ i = 5 ∨ i = 6 ∨ i = 7 := by omega
     rcases this with rfl | rfl | rfl | rfl | rfl | rfl | rfl | rfl <;>
       simp [byteOfWord, Memory.word, lane])

/-- A word is determined by its four bytes (spec 20_memory R58). -/
theorem word_ext (o : ByteOrder) {v v' : Word} (h : ∀ k, k < 4 → byteOfWord o v k = byteOfWord o v' k) : v = v' := by
  apply BitVec.eq_of_getLsbD_eq
  intro i hi
  cases o
  · have h1 := congrArg (fun b => b.getLsbD (i % 8)) (h (3 - i / 8) (by omega))
    have e : 3 - (3 - i / 8) = i / 8 := by omega
    simp only [byteOfWord, lane, BitVec.getLsbD_setWidth, BitVec.getLsbD_ushiftRight, e, Nat.mod_lt i (by omega : 8 > 0),
      decide_true, Bool.true_and] at h1
    rwa [show 8 * (i / 8) + i % 8 = i by omega] at h1
  · have h1 := congrArg (fun b => b.getLsbD (i % 8)) (h (i / 8) (by omega))
    simp only [byteOfWord, lane, BitVec.getLsbD_setWidth, BitVec.getLsbD_ushiftRight, Nat.mod_lt i (by omega : 8 > 0),
      decide_true, Bool.true_and] at h1
    rwa [show 8 * (i / 8) + i % 8 = i by omega] at h1

/-- A word read after a word is stored (spec 20_memory R54, R55). -/
theorem Memory.word_storeWord {m : Memory} (h : m.wf = true) (o : ByteOrder) (w : Nat) (v : Word) (w' : Nat) :
    (m.storeWord o w v).word o w' = if w' = w then v else m.word o w' := by
  apply word_ext o
  intro k hk
  rw [byteOfWord_word o _ _ _ hk, Memory.read_storeWord h]
  have h1 : (4 * w' + k) / 4 = w' := by omega
  have h2 : (4 * w' + k) % 4 = k := by omega
  rw [h1, h2]
  split
  · rfl
  · rw [byteOfWord_word o _ _ _ hk]

/-! ### Ranges -/

theorem wordInRange_iff (p : Params) (a : Word) :
    wordInRange p a = true ↔ 0 ≤ a.toInt ∧ a.toInt < p.memWords := by
  simp [wordInRange]

theorem byteInRange_iff (p : Params) (a : Word) :
    byteInRange p a = true ↔ 0 ≤ widx a ∧ widx a < p.memWords := by
  simp only [byteInRange, Bool.and_eq_true, decide_eq_true_eq]

theorem toInt_toNat_of_nonneg {a : Word} (h : 0 ≤ a.toInt) : a.toInt.toNat = a.toNat := by
  rw [BitVec.toInt_eq_toNat_cond] at *
  split at * <;> omega

/-- The bytes of an address in range: word index times four plus offset is the address (spec 20_memory R53). -/
theorem widx_off {a : Word} (h : 0 ≤ widx a) : 4 * (widx a).toNat + off a = a.toNat := by
  have h0 : 0 ≤ a.toInt := by unfold widx at h; omega
  have h1 := toInt_toNat_of_nonneg h0
  unfold widx off
  omega

/-! ### The control store -/

/-- Every entry after one is loaded (spec 70_reset_and_hazards R273). -/
theorem ControlStore.entry_load (p : Params) (cs : ControlStore) (u w u' : Nat) :
    (cs.load u w).entry p u' = if u' = u then w else cs.entry p u' := by
  simp only [ControlStore.load, ControlStore.entry]
  split
  · rfl
  · rename_i hu
    induction cs with
    | nil => rfl
    | cons c rest ih =>
      obtain ⟨k, v⟩ := c
      by_cases hk : k = u
      · subst hk
        simpa [ControlStore.entry, hu] using ih
      · simp only [List.filter, ControlStore.entry, (by simpa using hk : (k != u) = true), ih]

end Sys2Proof.Machine
end

