-- ==== Sys2Proof/Laws/State.lean ====
section
/-! SUPPORT. One lemma per field per update of the state, so that no proof unfolds a record update. -/

namespace Sys2Proof.Machine

@[simp] theorem State.fail_regs (s : State) (f : Failure) : (s.fail f).regs = s.regs := rfl
@[simp] theorem State.fail_upc (s : State) (f : Failure) : (s.fail f).upc = s.upc := rfl
@[simp] theorem State.fail_mem (s : State) (f : Failure) : (s.fail f).mem = s.mem := rfl
@[simp] theorem State.fail_status (s : State) (f : Failure) : (s.fail f).status = .failed f := rfl
@[simp] theorem State.fail_par (s : State) (f : Failure) : (s.fail f).par = s.par := rfl
@[simp] theorem State.fail_cs (s : State) (f : Failure) : (s.fail f).cs = s.cs := rfl
@[simp] theorem State.fail_hookQueue (s : State) (f : Failure) : (s.fail f).hookQueue = s.hookQueue := rfl
@[simp] theorem State.fail_hookTick (s : State) (f : Failure) : (s.fail f).hookTick = s.hookTick := rfl
@[simp] theorem State.fail_ticks (s : State) (f : Failure) : (s.fail f).ticks = s.ticks := rfl

@[simp] theorem State.halt_regs (s : State) : (s.halt).regs = s.regs := rfl
@[simp] theorem State.halt_upc (s : State) : (s.halt).upc = s.upc := rfl
@[simp] theorem State.halt_mem (s : State) : (s.halt).mem = s.mem := rfl
@[simp] theorem State.halt_status (s : State) : (s.halt).status = .halted := rfl
@[simp] theorem State.halt_par (s : State) : (s.halt).par = s.par := rfl
@[simp] theorem State.halt_cs (s : State) : (s.halt).cs = s.cs := rfl
@[simp] theorem State.halt_hookQueue (s : State) : (s.halt).hookQueue = s.hookQueue := rfl
@[simp] theorem State.halt_hookTick (s : State) : (s.halt).hookTick = s.hookTick := rfl
@[simp] theorem State.halt_ticks (s : State) : (s.halt).ticks = s.ticks := rfl

@[simp] theorem State.resume_regs (s : State) : (s.resume).regs = s.regs := rfl
@[simp] theorem State.resume_upc (s : State) : (s.resume).upc = s.upc := rfl
@[simp] theorem State.resume_mem (s : State) : (s.resume).mem = s.mem := rfl
@[simp] theorem State.resume_status (s : State) : (s.resume).status = .running := rfl
@[simp] theorem State.resume_par (s : State) : (s.resume).par = s.par := rfl
@[simp] theorem State.resume_cs (s : State) : (s.resume).cs = s.cs := rfl
@[simp] theorem State.resume_hookQueue (s : State) : (s.resume).hookQueue = s.hookQueue := rfl
@[simp] theorem State.resume_hookTick (s : State) : (s.resume).hookTick = s.hookTick := rfl
@[simp] theorem State.resume_ticks (s : State) : (s.resume).ticks = s.ticks := rfl

@[simp] theorem State.loadEntry_regs (s : State) (u w : Nat) : (s.loadEntry u w).regs = s.regs := rfl
@[simp] theorem State.loadEntry_upc (s : State) (u w : Nat) : (s.loadEntry u w).upc = s.upc := rfl
@[simp] theorem State.loadEntry_mem (s : State) (u w : Nat) : (s.loadEntry u w).mem = s.mem := rfl
@[simp] theorem State.loadEntry_status (s : State) (u w : Nat) : (s.loadEntry u w).status = s.status := rfl
@[simp] theorem State.loadEntry_par (s : State) (u w : Nat) : (s.loadEntry u w).par = s.par := rfl
@[simp] theorem State.loadEntry_cs (s : State) (u w : Nat) : (s.loadEntry u w).cs = s.cs.load u w := rfl
@[simp] theorem State.loadEntry_hookQueue (s : State) (u w : Nat) : (s.loadEntry u w).hookQueue = s.hookQueue := rfl
@[simp] theorem State.loadEntry_hookTick (s : State) (u w : Nat) : (s.loadEntry u w).hookTick = s.hookTick := rfl
@[simp] theorem State.loadEntry_ticks (s : State) (u w : Nat) : (s.loadEntry u w).ticks = s.ticks := rfl

@[simp] theorem State.asked_regs (s : State) : s.asked.regs = s.regs := by
  unfold State.asked; split <;> rfl
@[simp] theorem State.asked_upc (s : State) : s.asked.upc = s.upc := by
  unfold State.asked; split <;> rfl
@[simp] theorem State.asked_mem (s : State) : s.asked.mem = s.mem := by
  unfold State.asked; split <;> rfl
@[simp] theorem State.asked_status (s : State) : s.asked.status = s.status := by
  unfold State.asked; split <;> rfl
@[simp] theorem State.asked_par (s : State) : s.asked.par = s.par := by
  unfold State.asked; split <;> rfl
@[simp] theorem State.asked_cs (s : State) : s.asked.cs = s.cs := by
  unfold State.asked; split <;> rfl
@[simp] theorem State.asked_ticks (s : State) : s.asked.ticks = s.ticks := by
  unfold State.asked; split <;> rfl

@[simp] theorem State.resetOf_regs (p : Params) (cs : ControlStore) (m : Memory) :
    (State.resetOf p cs m).regs = Regs.reset := rfl
@[simp] theorem State.resetOf_upc (p : Params) (cs : ControlStore) (m : Memory) :
    (State.resetOf p cs m).upc = p.resetUpc := rfl
@[simp] theorem State.resetOf_mem (p : Params) (cs : ControlStore) (m : Memory) :
    (State.resetOf p cs m).mem = m := rfl
@[simp] theorem State.resetOf_status (p : Params) (cs : ControlStore) (m : Memory) :
    (State.resetOf p cs m).status = .running := rfl
@[simp] theorem State.resetOf_par (p : Params) (cs : ControlStore) (m : Memory) :
    (State.resetOf p cs m).par = p := rfl
@[simp] theorem State.resetOf_cs (p : Params) (cs : ControlStore) (m : Memory) :
    (State.resetOf p cs m).cs = cs := rfl
@[simp] theorem State.resetOf_hookQueue (p : Params) (cs : ControlStore) (m : Memory) :
    (State.resetOf p cs m).hookQueue = [] := rfl
@[simp] theorem State.resetOf_hookTick (p : Params) (cs : ControlStore) (m : Memory) :
    (State.resetOf p cs m).hookTick = 0 := rfl
@[simp] theorem State.resetOf_ticks (p : Params) (cs : ControlStore) (m : Memory) :
    (State.resetOf p cs m).ticks = [] := rfl

@[simp] theorem Regs.write_h_pc (x : Regs) (v : Word) : (x.write .h v).pc = x.pc := rfl
@[simp] theorem Regs.write_h_mar (x : Regs) (v : Word) : (x.write .h v).mar = x.mar := rfl
@[simp] theorem Regs.write_h_mdr (x : Regs) (v : Word) : (x.write .h v).mdr = x.mdr := rfl
@[simp] theorem Regs.write_h_sp (x : Regs) (v : Word) : (x.write .h v).sp = x.sp := rfl
@[simp] theorem Regs.write_h_lv (x : Regs) (v : Word) : (x.write .h v).lv = x.lv := rfl
@[simp] theorem Regs.write_h_cpp (x : Regs) (v : Word) : (x.write .h v).cpp = x.cpp := rfl
@[simp] theorem Regs.write_h_tos (x : Regs) (v : Word) : (x.write .h v).tos = x.tos := rfl
@[simp] theorem Regs.write_h_opc (x : Regs) (v : Word) : (x.write .h v).opc = x.opc := rfl
@[simp] theorem Regs.write_h_h (x : Regs) (v : Word) : (x.write .h v).h = v := rfl
@[simp] theorem Regs.write_h_mbrByte (x : Regs) (v : Word) : (x.write .h v).mbrByte = x.mbrByte := rfl
@[simp] theorem Regs.write_opc_pc (x : Regs) (v : Word) : (x.write .opc v).pc = x.pc := rfl
@[simp] theorem Regs.write_opc_mar (x : Regs) (v : Word) : (x.write .opc v).mar = x.mar := rfl
@[simp] theorem Regs.write_opc_mdr (x : Regs) (v : Word) : (x.write .opc v).mdr = x.mdr := rfl
@[simp] theorem Regs.write_opc_sp (x : Regs) (v : Word) : (x.write .opc v).sp = x.sp := rfl
@[simp] theorem Regs.write_opc_lv (x : Regs) (v : Word) : (x.write .opc v).lv = x.lv := rfl
@[simp] theorem Regs.write_opc_cpp (x : Regs) (v : Word) : (x.write .opc v).cpp = x.cpp := rfl
@[simp] theorem Regs.write_opc_tos (x : Regs) (v : Word) : (x.write .opc v).tos = x.tos := rfl
@[simp] theorem Regs.write_opc_opc (x : Regs) (v : Word) : (x.write .opc v).opc = v := rfl
@[simp] theorem Regs.write_opc_h (x : Regs) (v : Word) : (x.write .opc v).h = x.h := rfl
@[simp] theorem Regs.write_opc_mbrByte (x : Regs) (v : Word) : (x.write .opc v).mbrByte = x.mbrByte := rfl
@[simp] theorem Regs.write_tos_pc (x : Regs) (v : Word) : (x.write .tos v).pc = x.pc := rfl
@[simp] theorem Regs.write_tos_mar (x : Regs) (v : Word) : (x.write .tos v).mar = x.mar := rfl
@[simp] theorem Regs.write_tos_mdr (x : Regs) (v : Word) : (x.write .tos v).mdr = x.mdr := rfl
@[simp] theorem Regs.write_tos_sp (x : Regs) (v : Word) : (x.write .tos v).sp = x.sp := rfl
@[simp] theorem Regs.write_tos_lv (x : Regs) (v : Word) : (x.write .tos v).lv = x.lv := rfl
@[simp] theorem Regs.write_tos_cpp (x : Regs) (v : Word) : (x.write .tos v).cpp = x.cpp := rfl
@[simp] theorem Regs.write_tos_tos (x : Regs) (v : Word) : (x.write .tos v).tos = v := rfl
@[simp] theorem Regs.write_tos_opc (x : Regs) (v : Word) : (x.write .tos v).opc = x.opc := rfl
@[simp] theorem Regs.write_tos_h (x : Regs) (v : Word) : (x.write .tos v).h = x.h := rfl
@[simp] theorem Regs.write_tos_mbrByte (x : Regs) (v : Word) : (x.write .tos v).mbrByte = x.mbrByte := rfl
@[simp] theorem Regs.write_cpp_pc (x : Regs) (v : Word) : (x.write .cpp v).pc = x.pc := rfl
@[simp] theorem Regs.write_cpp_mar (x : Regs) (v : Word) : (x.write .cpp v).mar = x.mar := rfl
@[simp] theorem Regs.write_cpp_mdr (x : Regs) (v : Word) : (x.write .cpp v).mdr = x.mdr := rfl
@[simp] theorem Regs.write_cpp_sp (x : Regs) (v : Word) : (x.write .cpp v).sp = x.sp := rfl
@[simp] theorem Regs.write_cpp_lv (x : Regs) (v : Word) : (x.write .cpp v).lv = x.lv := rfl
@[simp] theorem Regs.write_cpp_cpp (x : Regs) (v : Word) : (x.write .cpp v).cpp = v := rfl
@[simp] theorem Regs.write_cpp_tos (x : Regs) (v : Word) : (x.write .cpp v).tos = x.tos := rfl
@[simp] theorem Regs.write_cpp_opc (x : Regs) (v : Word) : (x.write .cpp v).opc = x.opc := rfl
@[simp] theorem Regs.write_cpp_h (x : Regs) (v : Word) : (x.write .cpp v).h = x.h := rfl
@[simp] theorem Regs.write_cpp_mbrByte (x : Regs) (v : Word) : (x.write .cpp v).mbrByte = x.mbrByte := rfl
@[simp] theorem Regs.write_lv_pc (x : Regs) (v : Word) : (x.write .lv v).pc = x.pc := rfl
@[simp] theorem Regs.write_lv_mar (x : Regs) (v : Word) : (x.write .lv v).mar = x.mar := rfl
@[simp] theorem Regs.write_lv_mdr (x : Regs) (v : Word) : (x.write .lv v).mdr = x.mdr := rfl
@[simp] theorem Regs.write_lv_sp (x : Regs) (v : Word) : (x.write .lv v).sp = x.sp := rfl
@[simp] theorem Regs.write_lv_lv (x : Regs) (v : Word) : (x.write .lv v).lv = v := rfl
@[simp] theorem Regs.write_lv_cpp (x : Regs) (v : Word) : (x.write .lv v).cpp = x.cpp := rfl
@[simp] theorem Regs.write_lv_tos (x : Regs) (v : Word) : (x.write .lv v).tos = x.tos := rfl
@[simp] theorem Regs.write_lv_opc (x : Regs) (v : Word) : (x.write .lv v).opc = x.opc := rfl
@[simp] theorem Regs.write_lv_h (x : Regs) (v : Word) : (x.write .lv v).h = x.h := rfl
@[simp] theorem Regs.write_lv_mbrByte (x : Regs) (v : Word) : (x.write .lv v).mbrByte = x.mbrByte := rfl
@[simp] theorem Regs.write_sp_pc (x : Regs) (v : Word) : (x.write .sp v).pc = x.pc := rfl
@[simp] theorem Regs.write_sp_mar (x : Regs) (v : Word) : (x.write .sp v).mar = x.mar := rfl
@[simp] theorem Regs.write_sp_mdr (x : Regs) (v : Word) : (x.write .sp v).mdr = x.mdr := rfl
@[simp] theorem Regs.write_sp_sp (x : Regs) (v : Word) : (x.write .sp v).sp = v := rfl
@[simp] theorem Regs.write_sp_lv (x : Regs) (v : Word) : (x.write .sp v).lv = x.lv := rfl
@[simp] theorem Regs.write_sp_cpp (x : Regs) (v : Word) : (x.write .sp v).cpp = x.cpp := rfl
@[simp] theorem Regs.write_sp_tos (x : Regs) (v : Word) : (x.write .sp v).tos = x.tos := rfl
@[simp] theorem Regs.write_sp_opc (x : Regs) (v : Word) : (x.write .sp v).opc = x.opc := rfl
@[simp] theorem Regs.write_sp_h (x : Regs) (v : Word) : (x.write .sp v).h = x.h := rfl
@[simp] theorem Regs.write_sp_mbrByte (x : Regs) (v : Word) : (x.write .sp v).mbrByte = x.mbrByte := rfl
@[simp] theorem Regs.write_pc_pc (x : Regs) (v : Word) : (x.write .pc v).pc = v := rfl
@[simp] theorem Regs.write_pc_mar (x : Regs) (v : Word) : (x.write .pc v).mar = x.mar := rfl
@[simp] theorem Regs.write_pc_mdr (x : Regs) (v : Word) : (x.write .pc v).mdr = x.mdr := rfl
@[simp] theorem Regs.write_pc_sp (x : Regs) (v : Word) : (x.write .pc v).sp = x.sp := rfl
@[simp] theorem Regs.write_pc_lv (x : Regs) (v : Word) : (x.write .pc v).lv = x.lv := rfl
@[simp] theorem Regs.write_pc_cpp (x : Regs) (v : Word) : (x.write .pc v).cpp = x.cpp := rfl
@[simp] theorem Regs.write_pc_tos (x : Regs) (v : Word) : (x.write .pc v).tos = x.tos := rfl
@[simp] theorem Regs.write_pc_opc (x : Regs) (v : Word) : (x.write .pc v).opc = x.opc := rfl
@[simp] theorem Regs.write_pc_h (x : Regs) (v : Word) : (x.write .pc v).h = x.h := rfl
@[simp] theorem Regs.write_pc_mbrByte (x : Regs) (v : Word) : (x.write .pc v).mbrByte = x.mbrByte := rfl
@[simp] theorem Regs.write_mdr_pc (x : Regs) (v : Word) : (x.write .mdr v).pc = x.pc := rfl
@[simp] theorem Regs.write_mdr_mar (x : Regs) (v : Word) : (x.write .mdr v).mar = x.mar := rfl
@[simp] theorem Regs.write_mdr_mdr (x : Regs) (v : Word) : (x.write .mdr v).mdr = v := rfl
@[simp] theorem Regs.write_mdr_sp (x : Regs) (v : Word) : (x.write .mdr v).sp = x.sp := rfl
@[simp] theorem Regs.write_mdr_lv (x : Regs) (v : Word) : (x.write .mdr v).lv = x.lv := rfl
@[simp] theorem Regs.write_mdr_cpp (x : Regs) (v : Word) : (x.write .mdr v).cpp = x.cpp := rfl
@[simp] theorem Regs.write_mdr_tos (x : Regs) (v : Word) : (x.write .mdr v).tos = x.tos := rfl
@[simp] theorem Regs.write_mdr_opc (x : Regs) (v : Word) : (x.write .mdr v).opc = x.opc := rfl
@[simp] theorem Regs.write_mdr_h (x : Regs) (v : Word) : (x.write .mdr v).h = x.h := rfl
@[simp] theorem Regs.write_mdr_mbrByte (x : Regs) (v : Word) : (x.write .mdr v).mbrByte = x.mbrByte := rfl
@[simp] theorem Regs.write_mar_pc (x : Regs) (v : Word) : (x.write .mar v).pc = x.pc := rfl
@[simp] theorem Regs.write_mar_mar (x : Regs) (v : Word) : (x.write .mar v).mar = v := rfl
@[simp] theorem Regs.write_mar_mdr (x : Regs) (v : Word) : (x.write .mar v).mdr = x.mdr := rfl
@[simp] theorem Regs.write_mar_sp (x : Regs) (v : Word) : (x.write .mar v).sp = x.sp := rfl
@[simp] theorem Regs.write_mar_lv (x : Regs) (v : Word) : (x.write .mar v).lv = x.lv := rfl
@[simp] theorem Regs.write_mar_cpp (x : Regs) (v : Word) : (x.write .mar v).cpp = x.cpp := rfl
@[simp] theorem Regs.write_mar_tos (x : Regs) (v : Word) : (x.write .mar v).tos = x.tos := rfl
@[simp] theorem Regs.write_mar_opc (x : Regs) (v : Word) : (x.write .mar v).opc = x.opc := rfl
@[simp] theorem Regs.write_mar_h (x : Regs) (v : Word) : (x.write .mar v).h = x.h := rfl
@[simp] theorem Regs.write_mar_mbrByte (x : Regs) (v : Word) : (x.write .mar v).mbrByte = x.mbrByte := rfl
@[simp] theorem Regs.write_mbr_pc (x : Regs) (v : Word) : (x.write .mbr v).pc = x.pc := rfl
@[simp] theorem Regs.write_mbr_mar (x : Regs) (v : Word) : (x.write .mbr v).mar = x.mar := rfl
@[simp] theorem Regs.write_mbr_mdr (x : Regs) (v : Word) : (x.write .mbr v).mdr = x.mdr := rfl
@[simp] theorem Regs.write_mbr_sp (x : Regs) (v : Word) : (x.write .mbr v).sp = x.sp := rfl
@[simp] theorem Regs.write_mbr_lv (x : Regs) (v : Word) : (x.write .mbr v).lv = x.lv := rfl
@[simp] theorem Regs.write_mbr_cpp (x : Regs) (v : Word) : (x.write .mbr v).cpp = x.cpp := rfl
@[simp] theorem Regs.write_mbr_tos (x : Regs) (v : Word) : (x.write .mbr v).tos = x.tos := rfl
@[simp] theorem Regs.write_mbr_opc (x : Regs) (v : Word) : (x.write .mbr v).opc = x.opc := rfl
@[simp] theorem Regs.write_mbr_h (x : Regs) (v : Word) : (x.write .mbr v).h = x.h := rfl
@[simp] theorem Regs.write_mbr_mbrByte (x : Regs) (v : Word) : (x.write .mbr v).mbrByte = lowByte v := rfl

end Sys2Proof.Machine
end

