-- ==== Sys2Proof/Laws/Operands.lean ====
section
/-! SUPPORT. The register file: reading after writing one register and after the writes of a mask (spec 10_state R24,
R25; 40_register_file_and_buses R111, R112, R131). -/

namespace Sys2Proof.Machine

/-- Reading after writing an ordinary register (spec 40_register_file_and_buses R111, 10_state R25). -/
theorem Regs.read_write (x : Regs) (q : Dest) (hq : q ≠ .mbr) (v : Word) (r : Reg) :
    (x.write q v).read r = if r = regOf q then v else x.read r := by
  cases q <;> cases r <;> first | rfl | exact absurd rfl hq

/-- Reading after writing MBR: both views, and nothing else (spec 40_register_file_and_buses R112, 10_state R25). -/
theorem Regs.read_write_mbr (x : Regs) (v : Word) (r : Reg) :
    (x.write .mbr v).read r =
      if r = .mbr then sext8 (lowByte v) else if r = .mbru then zext8 (lowByte v) else x.read r := by
  cases r <;> rfl

theorem lowByte_zext8 (b : Byte) : lowByte (zext8 b) = b := by
  simp [lowByte, zext8]

/-- A write under a mask bit, cell by cell (spec 40_register_file_and_buses R131). -/
theorem Regs.write_if (b : Bool) (q : Dest) (c : Word) (y : Regs) :
    (if b then y.write q c else y) =
      { pc := if b && q == .pc then c else y.pc, mar := if b && q == .mar then c else y.mar,
        mdr := if b && q == .mdr then c else y.mdr, sp := if b && q == .sp then c else y.sp,
        lv := if b && q == .lv then c else y.lv, cpp := if b && q == .cpp then c else y.cpp,
        tos := if b && q == .tos then c else y.tos, opc := if b && q == .opc then c else y.opc,
        h := if b && q == .h then c else y.h,
        mbrByte := if b && q == .mbr then lowByte c else y.mbrByte } := by
  cases b <;> cases q <;> rfl

/-- The register file after the writes of a mask, cell by cell (spec 40_register_file_and_buses R131, R143). -/
theorem Regs.writeMask_eq (x : Regs) (k : Mask) (c : Word) :
    x.writeMask k c =
      { pc := if k.pc then c else x.pc, mar := if k.mar then c else x.mar, mdr := if k.mdr then c else x.mdr,
        sp := if k.sp then c else x.sp, lv := if k.lv then c else x.lv, cpp := if k.cpp then c else x.cpp,
        tos := if k.tos then c else x.tos, opc := if k.opc then c else x.opc, h := if k.h then c else x.h,
        mbrByte := if k.mbr then lowByte c else x.mbrByte } := by
  simp only [Regs.writeMask, List.foldl_filter, Dest.all, List.foldl, Regs.write_if]
  simp [Mask.names]

/-- A mask that names a register writes it as one more write does (spec 40_register_file_and_buses R131). -/
theorem Regs.writeMask_names (x : Regs) (k : Mask) (c : Word) :
    x.writeMask { k with h := true } c = (x.writeMask k c).write .h c ∧
    x.writeMask { k with opc := true } c = (x.writeMask k c).write .opc c ∧
    x.writeMask { k with tos := true } c = (x.writeMask k c).write .tos c ∧
    x.writeMask { k with cpp := true } c = (x.writeMask k c).write .cpp c ∧
    x.writeMask { k with lv := true } c = (x.writeMask k c).write .lv c ∧
    x.writeMask { k with sp := true } c = (x.writeMask k c).write .sp c ∧
    x.writeMask { k with pc := true } c = (x.writeMask k c).write .pc c ∧
    x.writeMask { k with mdr := true } c = (x.writeMask k c).write .mdr c ∧
    x.writeMask { k with mar := true } c = (x.writeMask k c).write .mar c ∧
    x.writeMask { k with mbr := true } c = (x.writeMask k c).write .mbr c := by
  simp [Regs.writeMask_eq, Regs.write]

end Sys2Proof.Machine
end

