-- ==== Sys2Proof/Laws/Ops.lean ====
section
/-! SUPPORT. What the shared operations can do: the memory operation, the cycle, the engine, the fetch; each said once. -/

namespace Sys2Proof.Machine

/-- The ALU of the control lines is the table's row (spec 41_alu R152 and R160 to R175), line by line. -/
theorem aluResult_rows (a b : Word) :
    aluResult ⟨false, false, false, false⟩ a b = 0 ∧ aluResult ⟨false, false, false, true⟩ a b = 1 ∧
    aluResult ⟨false, false, true, false⟩ a b = 0xffffffff ∧ aluResult ⟨false, false, true, true⟩ a b = 0 ∧
    aluResult ⟨false, true, false, false⟩ a b = b ∧ aluResult ⟨false, true, false, true⟩ a b = b + 1 ∧
    aluResult ⟨false, true, true, false⟩ a b = b - 1 ∧ aluResult ⟨false, true, true, true⟩ a b = b ∧
    aluResult ⟨true, false, false, false⟩ a b = a ∧ aluResult ⟨true, false, false, true⟩ a b = a + 1 ∧
    aluResult ⟨true, false, true, false⟩ a b = ~~~a ∧ aluResult ⟨true, false, true, true⟩ a b = -a ∧
    aluResult ⟨true, true, false, false⟩ a b = a + b ∧ aluResult ⟨true, true, false, true⟩ a b = a + b + 1 ∧
    aluResult ⟨true, true, true, false⟩ a b = b - a - 1 ∧ aluResult ⟨true, true, true, true⟩ a b = b - a := by
  refine ⟨?_, ?_, ?_, ?_, ?_, ?_, ?_, ?_, ?_, ?_, ?_, ?_, ?_, ?_, ?_, ?_⟩ <;> simp [aluResult] <;> bv_omega

/-- The range check of the memory operation on the registers after the C-bus writes (spec 43_memory_ops R190 (d)). -/
def accessInRange (o : MemOp) (p : Params) (x1 : Regs) : Bool :=
  match o with
  | .idle  => true
  | .read  => wordInRange p x1.mar
  | .write => wordInRange p x1.mar
  | .fetch => byteInRange p (x1.fetchAddress p)

/-- The failure of a memory operation out of range (spec 60_exceptions R241). -/
def accessFailure (o : MemOp) (p : Params) (x1 : Regs) : Failure :=
  match o with
  | .idle  => .outOfRangeMem .memWordRead x1.mar
  | .read  => .outOfRangeMem .memWordRead x1.mar
  | .write => .outOfRangeMem .memWordWrite x1.mar
  | .fetch => .outOfRangeMem .memByteRead (x1.fetchAddress p)

/-- The registers and the memory after a memory operation in range (spec 43_memory_ops R191 to R194). -/
def accessResult (o : MemOp) (p : Params) (x1 : Regs) (m : Memory) : Regs × Memory :=
  match o with
  | .idle  => (x1, m)
  | .read  => (x1.write .mdr (m.word p.byteOrder x1.mar.toInt.toNat), m)
  | .write => (x1, m.storeWord p.byteOrder x1.mar.toInt.toNat x1.mdr)
  | .fetch => (x1.write .mbr (zext8 (m.read (4 * (widx (x1.fetchAddress p)).toNat + off (x1.fetchAddress p)))), m)

/-- A memory operation succeeds exactly when it is in range. -/
theorem memAccess_eq (o : MemOp) (p : Params) (x1 : Regs) (m : Memory) :
    memAccess o p x1 m =
      if accessInRange o p x1 then .ok (accessResult o p x1 m) else .error (accessFailure o p x1) := by
  cases o <;> simp only [memAccess, noAccess, readAccess, writeAccess, fetchAccess, getWord, setWord, getByte,
    accessInRange, accessResult, accessFailure]
  · rfl
  all_goals split <;> rename_i h <;> split at h <;> simp_all

/-- A memory operation keeps the canonical form and the bounds of the memory (spec 20_memory R51). -/
theorem accessResult_keeps {o : MemOp} {p : Params} {x1 : Regs} {m : Memory} (h : accessInRange o p x1 = true)
    (hw : m.wf = true) (hb : m.within p.memWords = true) :
    (accessResult o p x1 m).2.wf = true ∧ (accessResult o p x1 m).2.within p.memWords = true := by
  cases o
  case write =>
    obtain ⟨h0, h1⟩ := (wordInRange_iff p x1.mar).mp h
    exact ⟨Memory.wf_storeWord hw _ _ _, Memory.within_storeWord _ _ hb (by omega)⟩
  all_goals exact ⟨hw, hb⟩

/-- Everything a cycle's steps 2 to 8 can do (spec 45_execution_cycle R216): complete, or fail with nothing done. -/
theorem runCycle_cases (d : Datapath) (s : State) :
    (∃ f, d.access s.par (d.cbus s.regs (d.shift (d.alu s.regs.h (d.bbus s.regs)))) s.mem = .error f ∧
      runCycle d s = .next (s.fail f)) ∨
    (∃ x2 m2, d.access s.par (d.cbus s.regs (d.shift (d.alu s.regs.h (d.bbus s.regs)))) s.mem = .ok (x2, m2) ∧
      runCycle d s = .next { s with
        regs := x2, mem := m2,
        upc := d.next s.par (flagN (d.alu s.regs.h (d.bbus s.regs))) (flagZ (d.alu s.regs.h (d.bbus s.regs))),
        ticks := d.event :: s.ticks }) := by
  cases h : d.access s.par (d.cbus s.regs (d.shift (d.alu s.regs.h (d.bbus s.regs)))) s.mem with
  | error f => exact .inl ⟨f, rfl, by simp only [runCycle, h]⟩
  | ok xm => exact .inr ⟨xm.1, xm.2, rfl, by simp only [runCycle, h]⟩

/-- Everything the engine can do (spec 45_execution_cycle R216, 60_exceptions R251). -/
theorem engine_cases (run : Instr → State → Outcome) (s : State) :
    (s.status = .halted ∧ engine run s = .fault .halted) ∨
    (∃ f, s.status = .failed f ∧ engine run s = .fault (.failed f)) ∨
    (s.status = .running ∧
      ((∃ f, fetchRaw s = .error f ∧ engine run s = .next (s.fail f)) ∨
       ∃ raw, fetchRaw s = .ok raw ∧
        ((∃ c, decode s.par.nextAddrWidth raw = .error c ∧ engine run s = .next (s.fail (.encodingError c raw))) ∨
         ∃ i, decode s.par.nextAddrWidth raw = .ok i ∧
          ((i.isIllegal = true ∧ engine run s = run i s) ∨
           (i.isIllegal = false ∧ hookAnswer s = true ∧ engine run s = run i s.asked) ∨
           (i.isIllegal = false ∧ hookAnswer s = false ∧ engine run s = .next s.asked.halt))))) := by
  cases hs : s.status with
  | halted => exact .inl ⟨rfl, by simp [engine, hs]⟩
  | failed f => exact .inr (.inl ⟨f, rfl, by simp [engine, hs]⟩)
  | running =>
    refine .inr (.inr ⟨rfl, ?_⟩)
    cases hf : fetchRaw s with
    | error f => exact .inl ⟨f, rfl, by simp [engine, hs, hf]⟩
    | ok raw =>
      refine .inr ⟨raw, rfl, ?_⟩
      cases hd : decode s.par.nextAddrWidth raw with
      | error c => exact .inl ⟨c, rfl, by simp [engine, hs, hf, hd]⟩
      | ok i =>
        refine .inr ⟨i, rfl, ?_⟩
        cases hi : i.isIllegal <;> cases hh : hookAnswer s <;> simp [engine, hs, hf, hd, hi, hh]

end Sys2Proof.Machine
end

