-- ==== Sys2Proof/Laws/PerInstr.lean ====
section
/-! SUPPORT. The family `EncodingSelectsRow`: the word of a well-formed instruction selects the instruction's own row of
spec/opcode_table.json, by that row's match and mask (spec 30_encoding R100). -/

namespace Sys2Proof.Laws.EncodingSelectsRow

/-- The word of a well-formed instruction selects its row. -/
def Statement (i : Instr) : Prop :=
  ∀ width : Nat, i.wellFormed width = true → i.pattern.selects (encode i) = true

theorem selects_of_and {i : Instr} (h : encode i &&& i.pattern.mask = i.pattern.bits) : Statement i := by
  intro _ _; simp only [Pattern.selects, h, beq_self_eq_true]

/-- Two bits under their mask. -/
theorem and_two_bits {w i j mask : Nat} (hm : mask = 2 ^ i ||| 2 ^ j) (hi : w.testBit i = true)
    (hj : w.testBit j = true) : w &&& mask = mask := by
  subst hm
  apply Nat.eq_of_testBit_eq
  intro k
  simp only [Nat.testBit_and, Nat.testBit_or, Nat.testBit_two_pow]
  by_cases a : i = k <;> by_cases b : j = k <;> simp_all

theorem and_fifteen (w : Nat) : w &&& 0x00000000f = w % 16 := Nat.and_two_pow_sub_one_eq_mod w 4

theorem and_twelve {w : Nat} (h : 12 ≤ w % 16) : w &&& 0x00000000c = 0x00000000c := by
  have hw : w &&& 0x00000000c = (w % 16) &&& 0x00000000c := by rw [← and_fifteen, Nat.and_assoc]; rfl
  have hx : ∀ x, x < 16 → 12 ≤ x → x &&& 0x00000000c = 0x00000000c := by decide
  rw [hw]; exact hx _ (Nat.mod_lt _ (by decide)) h

theorem mi (m : Mi) : Statement (.mi m) := 
  selects_of_and (Nat.and_zero _)

theorem aluZero (m : Mi) : Statement (.aluZero m) := by
  apply selects_of_and
  rw [encode_of_record rfl]; simp only [Instr.pattern, encodeMi_and_alu]; decide

theorem aluOne (m : Mi) : Statement (.aluOne m) := by
  apply selects_of_and
  rw [encode_of_record rfl]; simp only [Instr.pattern, encodeMi_and_alu]; decide

theorem aluMinus1 (m : Mi) : Statement (.aluMinus1 m) := by
  apply selects_of_and
  rw [encode_of_record rfl]; simp only [Instr.pattern, encodeMi_and_alu]; decide

theorem aluMinus1Inc (m : Mi) : Statement (.aluMinus1Inc m) := by
  apply selects_of_and
  rw [encode_of_record rfl]; simp only [Instr.pattern, encodeMi_and_alu]; decide

theorem aluB (m : Mi) : Statement (.aluB m) := by
  apply selects_of_and
  rw [encode_of_record rfl]; simp only [Instr.pattern, encodeMi_and_alu]; decide

theorem aluBInc (m : Mi) : Statement (.aluBInc m) := by
  apply selects_of_and
  rw [encode_of_record rfl]; simp only [Instr.pattern, encodeMi_and_alu]; decide

theorem aluBDec (m : Mi) : Statement (.aluBDec m) := by
  apply selects_of_and
  rw [encode_of_record rfl]; simp only [Instr.pattern, encodeMi_and_alu]; decide

theorem aluBDecInc (m : Mi) : Statement (.aluBDecInc m) := by
  apply selects_of_and
  rw [encode_of_record rfl]; simp only [Instr.pattern, encodeMi_and_alu]; decide

theorem aluA (m : Mi) : Statement (.aluA m) := by
  apply selects_of_and
  rw [encode_of_record rfl]; simp only [Instr.pattern, encodeMi_and_alu]; decide

theorem aluAInc (m : Mi) : Statement (.aluAInc m) := by
  apply selects_of_and
  rw [encode_of_record rfl]; simp only [Instr.pattern, encodeMi_and_alu]; decide

theorem aluNotA (m : Mi) : Statement (.aluNotA m) := by
  apply selects_of_and
  rw [encode_of_record rfl]; simp only [Instr.pattern, encodeMi_and_alu]; decide

theorem aluNegA (m : Mi) : Statement (.aluNegA m) := by
  apply selects_of_and
  rw [encode_of_record rfl]; simp only [Instr.pattern, encodeMi_and_alu]; decide

theorem aluAdd (m : Mi) : Statement (.aluAdd m) := by
  apply selects_of_and
  rw [encode_of_record rfl]; simp only [Instr.pattern, encodeMi_and_alu]; decide

theorem aluAddInc (m : Mi) : Statement (.aluAddInc m) := by
  apply selects_of_and
  rw [encode_of_record rfl]; simp only [Instr.pattern, encodeMi_and_alu]; decide

theorem aluRsubDec (m : Mi) : Statement (.aluRsubDec m) := by
  apply selects_of_and
  rw [encode_of_record rfl]; simp only [Instr.pattern, encodeMi_and_alu]; decide

theorem aluRsub (m : Mi) : Statement (.aluRsub m) := by
  apply selects_of_and
  rw [encode_of_record rfl]; simp only [Instr.pattern, encodeMi_and_alu]; decide

theorem shNone (m : Mi) : Statement (.shNone m) := by
  apply selects_of_and
  rw [encode_of_record rfl]; simp only [Instr.pattern, encodeMi_and_shift]; decide

theorem shSll8 (m : Mi) : Statement (.shSll8 m) := by
  apply selects_of_and
  rw [encode_of_record rfl]; simp only [Instr.pattern, encodeMi_and_shift]; decide

theorem shSra1 (m : Mi) : Statement (.shSra1 m) := by
  apply selects_of_and
  rw [encode_of_record rfl]; simp only [Instr.pattern, encodeMi_and_shift]; decide

theorem memNone (m : Mi) : Statement (.memNone m) := by
  apply selects_of_and
  rw [encode_of_record rfl]; simp only [Instr.pattern, encodeMi_and_mem]; decide

theorem memRead (m : Mi) : Statement (.memRead m) := by
  apply selects_of_and
  rw [encode_of_record rfl]; simp only [Instr.pattern, encodeMi_and_mem]; decide

theorem memWrite (m : Mi) : Statement (.memWrite m) := by
  apply selects_of_and
  rw [encode_of_record rfl]; simp only [Instr.pattern, encodeMi_and_mem]; decide

theorem memFetch (m : Mi) : Statement (.memFetch m) := by
  apply selects_of_and
  rw [encode_of_record rfl]; simp only [Instr.pattern, encodeMi_and_mem]; decide

theorem nextUncond (m : Mi) : Statement (.nextUncond m) := by
  apply selects_of_and
  rw [encode_of_record rfl]; simp only [Instr.pattern, encodeMi_and_jump]; decide

theorem nextJamn (m : Mi) : Statement (.nextJamn m) := by
  apply selects_of_and
  rw [encode_of_record rfl]; simp only [Instr.pattern, encodeMi_and_jump]; decide

theorem nextJamz (m : Mi) : Statement (.nextJamz m) := by
  apply selects_of_and
  rw [encode_of_record rfl]; simp only [Instr.pattern, encodeMi_and_jump]; decide

theorem nextJamnz (m : Mi) : Statement (.nextJamnz m) := by
  apply selects_of_and
  rw [encode_of_record rfl]; simp only [Instr.pattern, encodeMi_and_jump]; decide

theorem bMdr (m : Mi) : Statement (.bMdr m) := by
  apply selects_of_and
  rw [encode_of_record rfl]; simp only [Instr.pattern, encodeMi_and_b]; decide

theorem bPc (m : Mi) : Statement (.bPc m) := by
  apply selects_of_and
  rw [encode_of_record rfl]; simp only [Instr.pattern, encodeMi_and_b]; decide

theorem bMbr (m : Mi) : Statement (.bMbr m) := by
  apply selects_of_and
  rw [encode_of_record rfl]; simp only [Instr.pattern, encodeMi_and_b]; decide

theorem bMbru (m : Mi) : Statement (.bMbru m) := by
  apply selects_of_and
  rw [encode_of_record rfl]; simp only [Instr.pattern, encodeMi_and_b]; decide

theorem bSp (m : Mi) : Statement (.bSp m) := by
  apply selects_of_and
  rw [encode_of_record rfl]; simp only [Instr.pattern, encodeMi_and_b]; decide

theorem bLv (m : Mi) : Statement (.bLv m) := by
  apply selects_of_and
  rw [encode_of_record rfl]; simp only [Instr.pattern, encodeMi_and_b]; decide

theorem bCpp (m : Mi) : Statement (.bCpp m) := by
  apply selects_of_and
  rw [encode_of_record rfl]; simp only [Instr.pattern, encodeMi_and_b]; decide

theorem bTos (m : Mi) : Statement (.bTos m) := by
  apply selects_of_and
  rw [encode_of_record rfl]; simp only [Instr.pattern, encodeMi_and_b]; decide

theorem bOpc (m : Mi) : Statement (.bOpc m) := by
  apply selects_of_and
  rw [encode_of_record rfl]; simp only [Instr.pattern, encodeMi_and_b]; decide

theorem bMar (m : Mi) : Statement (.bMar m) := by
  apply selects_of_and
  rw [encode_of_record rfl]; simp only [Instr.pattern, encodeMi_and_b]; decide

theorem bH (m : Mi) : Statement (.bH m) := by
  apply selects_of_and
  rw [encode_of_record rfl]; simp only [Instr.pattern, encodeMi_and_b]; decide

theorem cH (m : Mi) : Statement (.cH m) := by
  apply selects_of_and
  rw [encode_of_record rfl]; exact (encodeMi_and_c _ .h).trans rfl

theorem cOpc (m : Mi) : Statement (.cOpc m) := by
  apply selects_of_and
  rw [encode_of_record rfl]; exact (encodeMi_and_c _ .opc).trans rfl

theorem cTos (m : Mi) : Statement (.cTos m) := by
  apply selects_of_and
  rw [encode_of_record rfl]; exact (encodeMi_and_c _ .tos).trans rfl

theorem cCpp (m : Mi) : Statement (.cCpp m) := by
  apply selects_of_and
  rw [encode_of_record rfl]; exact (encodeMi_and_c _ .cpp).trans rfl

theorem cLv (m : Mi) : Statement (.cLv m) := by
  apply selects_of_and
  rw [encode_of_record rfl]; exact (encodeMi_and_c _ .lv).trans rfl

theorem cSp (m : Mi) : Statement (.cSp m) := by
  apply selects_of_and
  rw [encode_of_record rfl]; exact (encodeMi_and_c _ .sp).trans rfl

theorem cPc (m : Mi) : Statement (.cPc m) := by
  apply selects_of_and
  rw [encode_of_record rfl]; exact (encodeMi_and_c _ .pc).trans rfl

theorem cMdr (m : Mi) : Statement (.cMdr m) := by
  apply selects_of_and
  rw [encode_of_record rfl]; exact (encodeMi_and_c _ .mdr).trans rfl

theorem cMar (m : Mi) : Statement (.cMar m) := by
  apply selects_of_and
  rw [encode_of_record rfl]; exact (encodeMi_and_c _ .mar).trans rfl

theorem cMbr (m : Mi) : Statement (.cMbr m) := by
  apply selects_of_and
  rw [encode_of_record rfl]; exact (encodeMi_and_c _ .mbr).trans rfl

theorem illegalShiftConflict (raw : Nat) : Statement (.illegalShiftConflict raw) := by
  intro _ h
  simp only [Instr.wellFormed, hasShiftConflict, Bool.and_eq_true] at h
  simp only [Pattern.selects, Instr.pattern, encode_illegal (i := .illegalShiftConflict raw) rfl, beq_iff_eq]
  exact and_two_bits (i := 22) (j := 21) rfl h.2.1 h.2.2

theorem illegalBUnassigned11 (raw : Nat) : Statement (.illegalBUnassigned11 raw) := by
  intro _ h
  simp only [Instr.wellFormed, Bool.and_eq_true, beq_iff_eq] at h
  simp only [Pattern.selects, Instr.pattern, encode_illegal (i := .illegalBUnassigned11 raw) rfl, beq_iff_eq, and_fifteen]
  exact h.2

theorem illegalBUnassigned12To15 (raw : Nat) : Statement (.illegalBUnassigned12To15 raw) := by
  intro _ h
  simp only [Instr.wellFormed, Bool.and_eq_true, decide_eq_true_eq] at h
  simp only [Pattern.selects, Instr.pattern, encode_illegal (i := .illegalBUnassigned12To15 raw) rfl, beq_iff_eq]
  exact and_twelve h.2

theorem illegalMemConflictWriteRead (raw : Nat) : Statement (.illegalMemConflictWriteRead raw) := by
  intro _ h
  simp only [Instr.wellFormed, Bool.and_eq_true] at h
  simp only [Pattern.selects, Instr.pattern, encode_illegal (i := .illegalMemConflictWriteRead raw) rfl, beq_iff_eq]
  exact and_two_bits (i := 6) (j := 5) rfl h.1.2 h.2

theorem illegalMemConflictWriteFetch (raw : Nat) : Statement (.illegalMemConflictWriteFetch raw) := by
  intro _ h
  simp only [Instr.wellFormed, Bool.and_eq_true] at h
  simp only [Pattern.selects, Instr.pattern, encode_illegal (i := .illegalMemConflictWriteFetch raw) rfl, beq_iff_eq]
  exact and_two_bits (i := 6) (j := 4) rfl h.1.1.2 h.2

theorem illegalMemConflictReadFetch (raw : Nat) : Statement (.illegalMemConflictReadFetch raw) := by
  intro _ h
  simp only [Instr.wellFormed, Bool.and_eq_true] at h
  simp only [Pattern.selects, Instr.pattern, encode_illegal (i := .illegalMemConflictReadFetch raw) rfl, beq_iff_eq]
  exact and_two_bits (i := 5) (j := 4) rfl h.1.2 h.2

end Sys2Proof.Laws.EncodingSelectsRow
end

