-- ==== Sys2Proof/Laws/Step.lean ====
section
/-! SUPPORT. What fetch and decode can do, each said once, and that the words of Safety.lean (the spec's table, the
registers after the C-bus writes, the range of the memory operation, the next address) are what the operations
compute. -/

namespace Sys2Proof.Machine

/-! ### Fetch and decode -/

/-- Everything the fetch can do (spec 44_next_address R205). -/
theorem fetchRaw_cases (s : State) :
    (s.par.csCapacity ≤ s.upc ∧ fetchRaw s = .error (.outOfRangeUpc s.upc)) ∨
    (s.upc < s.par.csCapacity ∧ fetchRaw s = .ok (s.cs.entry s.par s.upc)) := by
  unfold fetchRaw
  by_cases h : s.upc < s.par.csCapacity
  · exact .inr ⟨h, if_pos h⟩
  · exact .inl ⟨by omega, if_neg h⟩

/-- Everything `decode` can do with the result of `decodeMi`: name the record, reject RESERVED_BITS by name, or give an
illegal row whose meaning takes the failure of that cause (spec 30_encoding R96, R100; 60_exceptions R242). -/
theorem decode_cases (width raw : Nat) :
    (∃ m, decodeMi width raw = .ok m ∧ decode width raw = .ok m.name) ∨
    (decodeMi width raw = .error .reservedBits ∧ decode width raw = .error .reservedBits) ∨
    (∃ c i, decodeMi width raw = .error c ∧ decode width raw = .ok i ∧ i.isIllegal = true ∧
      i.illegalWord = some raw ∧ ∀ s, exec i s = .next (s.fail (.encodingError c raw))) := by
  cases h : decodeMi width raw with
  | ok m => exact .inl ⟨m, rfl, by simp only [decode, h]⟩
  | error c =>
    cases c with
    | reservedBits => exact .inr (.inl ⟨rfl, by simp only [decode, h]⟩)
    | shiftConflict =>
      exact .inr (.inr ⟨_, .illegalShiftConflict raw, rfl, by simp only [decode, h], rfl, rfl, fun _ => rfl⟩)
    | bUnassigned =>
      refine .inr (.inr ⟨_, _, rfl, by simp only [decode, h]; rfl, ?_, ?_, ?_⟩)
      · split <;> rfl
      · split <;> rfl
      · intro s; split <;> rfl
    | memConflict =>
      refine .inr (.inr ⟨_, _, rfl, by simp only [decode, h]; rfl, ?_, ?_, ?_⟩)
      · split <;> [rfl; split <;> rfl]
      · split <;> [rfl; split <;> rfl]
      · intro s; split <;> [rfl; split <;> rfl]

/-! ### The words of Safety.lean -/

/-- The ALU computes the table (spec 41_alu R152, 30_encoding R92). -/
theorem aluResult_eq_table (k : AluCtl) (a b : Word) : aluResult k a b = aluTable k a b := by
  have h := aluResult_rows a b
  obtain ⟨ena, enb, inva, inc⟩ := k
  cases ena <;> cases enb <;> cases inva <;> cases inc <;> simp only [h, aluTable]

/-- The shifter as a number (spec 42_shifter R181 to R183). -/
theorem shifter_eq_shifted (k : Shift) (r : Word) : shifter k r = shifted k r := by
  cases k
  · rfl
  · apply BitVec.eq_of_toNat_eq; simp [shifter, sll8, shifted, Nat.shiftLeft_eq]
  · apply BitVec.eq_of_toInt_eq
    simp only [shifter, sra1, shifted, BitVec.toInt_sshiftRight, BitVec.toInt_ofInt, Int.shiftRight_eq_div_pow]
    have h1 := BitVec.toInt_lt (x := r)
    have h2 := BitVec.le_toInt r
    rw [Int.bmod_eq_of_le] <;> simp at * <;> omega

theorem flagN_eq (r : Word) : flagN r = decide (r.toInt < 0) := by
  rw [flagN, ← BitVec.msb_eq_toInt, BitVec.msb_eq_getLsbD_last]

theorem flagZ_eq (r : Word) : flagZ r = decide (r = 0) := by
  by_cases h : r = 0
  · subst h; rfl
  · have h' : ¬ r = 0#32 := h
    simp [flagZ, h']

/-- The registers after the C-bus writes (spec 40_register_file_and_buses R131, R112). -/
theorem read_writeMask (x : Regs) (k : Mask) (c : Word) (q : Reg) : (x.writeMask k c).read q = afterCBus k c x q := by
  rw [Regs.writeMask_eq]
  cases q <;> simp only [Regs.read, afterCBus, sext8, zext8, lowByte]
  · split <;> rfl
  · split <;> rfl

theorem mar_writeMask (x : Regs) (k : Mask) (c : Word) : (x.writeMask k c).mar = afterCBus k c x .mar :=
  read_writeMask x k c .mar

theorem mdr_writeMask (x : Regs) (k : Mask) (c : Word) : (x.writeMask k c).mdr = afterCBus k c x .mdr :=
  read_writeMask x k c .mdr

theorem fetchAddress_writeMask (p : Params) (x : Regs) (k : Mask) (c : Word) :
    (x.writeMask k c).fetchAddress p = fetchAddressAfter p k c x := by
  cases h : p.fetchAddrReg
  · simp only [Regs.fetchAddress, fetchAddressAfter, h, mar_writeMask]
  · simp only [Regs.fetchAddress, fetchAddressAfter, h]; exact read_writeMask x k c .pc

/-- The range of the memory operation (spec 43_memory_ops R190). -/
theorem accessInRange_writeMask (p : Params) (m : Mi) (c : Word) (x : Regs) :
    accessInRange m.mem p (x.writeMask m.mask c) = accessOk p m c x := by
  unfold accessInRange accessOk
  cases m.mem <;> simp only [mar_writeMask, fetchAddress_writeMask]

/-- The next address (spec 44_next_address R200). -/
theorem nextUpc_eq_upcAfter (s : State) (m : Mi) (r : Word) :
    nextUpc m.next m.jump s.par (flagN r) (flagZ r) = upcAfter s m r := by
  simp only [nextUpc, upcAfter, flagAt, flagN_eq, flagZ_eq]
  by_cases h1 : r.toInt < 0 <;> by_cases h2 : r = 0#32 <;> cases m.jump.isJamn <;> cases m.jump.isJamz <;>
    simp [h1, h2, Nat.one_shiftLeft]

theorem isFetch_eq_beq (k : MemOp) : k.isFetch = (k == .fetch) := by cases k <;> rfl

end Sys2Proof.Machine
end

