-- ==== Sys2Proof/Tests/Slice0.lean ====
section
/-! SUPPORT. Tests: a check that refuses each ill-formed term, the decoding of a word written out from the spec's encoding
for every constructor, the spec's test vectors (95_test_vectors V302 to V318, whose numbers are the expected results
here), and for every obligation with hypotheses a witness that meets them. -/

namespace Sys2Proof.Tests

open Sys2Proof.Machine

/-! ### Helpers -/

/-- An empty write-mask. -/
def noMask : Mask := ⟨false, false, false, false, false, false, false, false, false, false⟩

/-- The record of the word 0x000000000 (V314). -/
def blank : Mi := ⟨0, .uncond, .pass, ⟨false, false, false, false⟩, noMask, .idle, .mdr⟩

/-- A state about to run the word `w` at entry 0 under a hook that answers true, with the registers `x` and the memory of
V313 (`M[0] = 0x7f6a5b4c`, `M[1] = 0x0000002a`, `M[63] = 0xaabbccdd`). -/
def at0 (w : Nat) (x : Regs) : State :=
  { State.reset.withFetchWord 34 w with
    regs := x
    mem := [(0, 0x7f), (1, 0x6a), (2, 0x5b), (3, 0x4c), (4, 0), (5, 0), (6, 0), (7, 0x2a), (252, 0xaa),
      (253, 0xbb), (254, 0xcc), (255, 0xdd)] }

/-- The outcome is a next state of which `p` holds. -/
def nextWith (o : Outcome) (p : State → Bool) : Bool :=
  match o with
  | .next t => p t
  | .fault _ => false
  | .refused _ => false

def zeros : Regs := Regs.reset

/-! ### WellFormed refuses an ill-formed term at each of its checks -/

theorem test_wellFormed_accepts : (Instr.mi { blank with next := 511 }).wellFormed 9 = true := by decide
theorem test_wellFormed_nextAddress : (Instr.mi { blank with next := 512 }).wellFormed 9 = false := by decide
theorem test_wellFormed_alu :
    (Instr.aluZero { blank with alu := ⟨false, false, false, true⟩ }).wellFormed 9 = false ∧
    (Instr.aluOne { blank with alu := ⟨false, false, false, false⟩ }).wellFormed 9 = false ∧
    (Instr.aluMinus1 { blank with alu := ⟨false, false, true, true⟩ }).wellFormed 9 = false ∧
    (Instr.aluMinus1Inc { blank with alu := ⟨false, false, true, false⟩ }).wellFormed 9 = false ∧
    (Instr.aluB { blank with alu := ⟨false, true, false, true⟩ }).wellFormed 9 = false ∧
    (Instr.aluBInc { blank with alu := ⟨false, true, false, false⟩ }).wellFormed 9 = false ∧
    (Instr.aluBDec { blank with alu := ⟨false, true, true, true⟩ }).wellFormed 9 = false ∧
    (Instr.aluBDecInc { blank with alu := ⟨false, true, true, false⟩ }).wellFormed 9 = false ∧
    (Instr.aluA { blank with alu := ⟨true, false, false, true⟩ }).wellFormed 9 = false ∧
    (Instr.aluAInc { blank with alu := ⟨true, false, false, false⟩ }).wellFormed 9 = false ∧
    (Instr.aluNotA { blank with alu := ⟨true, false, true, true⟩ }).wellFormed 9 = false ∧
    (Instr.aluNegA { blank with alu := ⟨true, false, true, false⟩ }).wellFormed 9 = false ∧
    (Instr.aluAdd { blank with alu := ⟨true, true, false, true⟩ }).wellFormed 9 = false ∧
    (Instr.aluAddInc { blank with alu := ⟨true, true, false, false⟩ }).wellFormed 9 = false ∧
    (Instr.aluRsubDec { blank with alu := ⟨true, true, true, true⟩ }).wellFormed 9 = false ∧
    (Instr.aluRsub { blank with alu := ⟨true, true, true, false⟩ }).wellFormed 9 = false := by
  decide
theorem test_wellFormed_shift :
    (Instr.shNone { blank with shift := .sll8 }).wellFormed 9 = false ∧
    (Instr.shSll8 blank).wellFormed 9 = false ∧ (Instr.shSra1 blank).wellFormed 9 = false := by decide
theorem test_wellFormed_mem :
    (Instr.memNone { blank with mem := .read }).wellFormed 9 = false ∧ (Instr.memRead blank).wellFormed 9 = false ∧
    (Instr.memWrite blank).wellFormed 9 = false ∧ (Instr.memFetch blank).wellFormed 9 = false := by decide
theorem test_wellFormed_next :
    (Instr.nextUncond { blank with jump := .jamn }).wellFormed 9 = false ∧
    (Instr.nextJamn blank).wellFormed 9 = false ∧ (Instr.nextJamz blank).wellFormed 9 = false ∧
    (Instr.nextJamnz blank).wellFormed 9 = false := by decide
theorem test_wellFormed_b :
    (Instr.bMdr { blank with b := .pc }).wellFormed 9 = false ∧
    (Instr.bPc { blank with b := .mdr }).wellFormed 9 = false ∧
    (Instr.bMbr { blank with b := .mdr }).wellFormed 9 = false ∧
    (Instr.bMbru { blank with b := .mdr }).wellFormed 9 = false ∧
    (Instr.bSp { blank with b := .mdr }).wellFormed 9 = false ∧
    (Instr.bLv { blank with b := .mdr }).wellFormed 9 = false ∧
    (Instr.bCpp { blank with b := .mdr }).wellFormed 9 = false ∧
    (Instr.bTos { blank with b := .mdr }).wellFormed 9 = false ∧
    (Instr.bOpc { blank with b := .mdr }).wellFormed 9 = false ∧
    (Instr.bMar { blank with b := .mdr }).wellFormed 9 = false ∧
    (Instr.bH { blank with b := .mdr }).wellFormed 9 = false := by
  decide
theorem test_wellFormed_c :
    (Instr.cH blank).wellFormed 9 = false ∧
    (Instr.cOpc blank).wellFormed 9 = false ∧
    (Instr.cTos blank).wellFormed 9 = false ∧
    (Instr.cCpp blank).wellFormed 9 = false ∧
    (Instr.cLv blank).wellFormed 9 = false ∧
    (Instr.cSp blank).wellFormed 9 = false ∧
    (Instr.cPc blank).wellFormed 9 = false ∧
    (Instr.cMdr blank).wellFormed 9 = false ∧
    (Instr.cMar blank).wellFormed 9 = false ∧
    (Instr.cMbr blank).wellFormed 9 = false := by
  decide
theorem test_wellFormed_illegal :
    (Instr.illegalShiftConflict 0x400600000).wellFormed 9 = false ∧
    (Instr.illegalShiftConflict 0x000400000).wellFormed 9 = false ∧
    (Instr.illegalBUnassigned11 0x00060000b).wellFormed 9 = false ∧
    (Instr.illegalBUnassigned11 0x00000000c).wellFormed 9 = false ∧
    (Instr.illegalBUnassigned12To15 0x00000000b).wellFormed 9 = false ∧
    (Instr.illegalMemConflictWriteRead 0x000000050).wellFormed 9 = false ∧
    (Instr.illegalMemConflictWriteRead 0x00000006b).wellFormed 9 = false ∧
    (Instr.illegalMemConflictWriteFetch 0x000000070).wellFormed 9 = false ∧
    (Instr.illegalMemConflictReadFetch 0x000000070).wellFormed 9 = false := by decide

/-! ### Decoding words written out from 30_encoding R81 and R90 to R95

Bits: NEXT_ADDRESS 33..25, JAMN 24, JAMZ 23, SLL8 22, SRA1 21, ENA 20, ENB 19, INVA 18, INC 17, C_H 16, C_OPC 15,
C_TOS 14, C_CPP 13, C_LV 12, C_SP 11, C_PC 10, C_MDR 9, C_MAR 8, C_MBR 7, WRITE 6, READ 5, FETCH 4, B 3..0. -/

/-- Every ALU row but the all-zero one, alone in its word (30_encoding R92). -/
theorem test_decode_alu :
    decode 9 0x20000 = .ok (.aluOne { blank with alu := ⟨false, false, false, true⟩ }) ∧
    decode 9 0x40000 = .ok (.aluMinus1 { blank with alu := ⟨false, false, true, false⟩ }) ∧
    decode 9 0x60000 = .ok (.aluMinus1Inc { blank with alu := ⟨false, false, true, true⟩ }) ∧
    decode 9 0x80000 = .ok (.aluB { blank with alu := ⟨false, true, false, false⟩ }) ∧
    decode 9 0xa0000 = .ok (.aluBInc { blank with alu := ⟨false, true, false, true⟩ }) ∧
    decode 9 0xc0000 = .ok (.aluBDec { blank with alu := ⟨false, true, true, false⟩ }) ∧
    decode 9 0xe0000 = .ok (.aluBDecInc { blank with alu := ⟨false, true, true, true⟩ }) ∧
    decode 9 0x100000 = .ok (.aluA { blank with alu := ⟨true, false, false, false⟩ }) ∧
    decode 9 0x120000 = .ok (.aluAInc { blank with alu := ⟨true, false, false, true⟩ }) ∧
    decode 9 0x140000 = .ok (.aluNotA { blank with alu := ⟨true, false, true, false⟩ }) ∧
    decode 9 0x160000 = .ok (.aluNegA { blank with alu := ⟨true, false, true, true⟩ }) ∧
    decode 9 0x180000 = .ok (.aluAdd { blank with alu := ⟨true, true, false, false⟩ }) ∧
    decode 9 0x1a0000 = .ok (.aluAddInc { blank with alu := ⟨true, true, false, true⟩ }) ∧
    decode 9 0x1c0000 = .ok (.aluRsubDec { blank with alu := ⟨true, true, true, false⟩ }) ∧
    decode 9 0x1e0000 = .ok (.aluRsub { blank with alu := ⟨true, true, true, true⟩ }) := by
  decide
/-- The words in which one group alone is at its all-zero row: NEXT_ADDRESS 0x155, JAMZ, SRA1, ALU 1100, C_MAR, READ,
B = 10, each with that group's bits cleared. -/
theorem test_decode_zeroRows :
    decode 9 (0x155 <<< 25 ||| 0x0008 <<< 20 ||| 0x2 <<< 20 ||| 0x100 ||| 0x20 ||| 10) =
      .ok (.aluZero { blank with next := 0x155, jump := .jamz, shift := .sra1, mask := { noMask with mar := true },
                                 mem := .read, b := .h }) ∧
    decode 9 (0x155 <<< 25 ||| 0x0008 <<< 20 ||| 0xc <<< 17 ||| 0x100 ||| 0x20 ||| 10) =
      .ok (.shNone { blank with next := 0x155, jump := .jamz, alu := ⟨true, true, false, false⟩,
                                mask := { noMask with mar := true }, mem := .read, b := .h }) ∧
    decode 9 (0x155 <<< 25 ||| 0x0008 <<< 20 ||| 0x2 <<< 20 ||| 0xc <<< 17 ||| 0x100 ||| 10) =
      .ok (.memNone { blank with next := 0x155, jump := .jamz, shift := .sra1, alu := ⟨true, true, false, false⟩,
                                 mask := { noMask with mar := true }, b := .h }) ∧
    decode 9 (0x155 <<< 25 ||| 0x0008 <<< 20 ||| 0x2 <<< 20 ||| 0xc <<< 17 ||| 0x100 ||| 0x20) =
      .ok (.bMdr { blank with next := 0x155, jump := .jamz, shift := .sra1, alu := ⟨true, true, false, false⟩,
                              mask := { noMask with mar := true }, mem := .read }) := by decide
/-- The shifter, memory and jump rows, alone in their words (30_encoding R93 to R95); the goto alone (V321's idle). -/
theorem test_decode_shift_mem_next :
    decode 9 0x000400000 = .ok (.shSll8 { blank with shift := .sll8 }) ∧
    decode 9 0x000200000 = .ok (.shSra1 { blank with shift := .sra1 }) ∧
    decode 9 0x000000020 = .ok (.memRead { blank with mem := .read }) ∧
    decode 9 0x000000040 = .ok (.memWrite { blank with mem := .write }) ∧
    decode 9 0x000000010 = .ok (.memFetch { blank with mem := .fetch }) ∧
    decode 9 0x008000000 = .ok (.nextUncond { blank with next := 4 }) ∧
    decode 9 0x001000000 = .ok (.nextJamn { blank with jump := .jamn }) ∧
    decode 9 0x000800000 = .ok (.nextJamz { blank with jump := .jamz }) ∧
    decode 9 0x001800000 = .ok (.nextJamnz { blank with jump := .jamnz }) := by decide
/-- The B-bus rows (30_encoding R90). -/
theorem test_decode_b :
    decode 9 0x1 = .ok (.bPc { blank with b := .pc }) ∧
    decode 9 0x2 = .ok (.bMbr { blank with b := .mbr }) ∧
    decode 9 0x3 = .ok (.bMbru { blank with b := .mbru }) ∧
    decode 9 0x4 = .ok (.bSp { blank with b := .sp }) ∧
    decode 9 0x5 = .ok (.bLv { blank with b := .lv }) ∧
    decode 9 0x6 = .ok (.bCpp { blank with b := .cpp }) ∧
    decode 9 0x7 = .ok (.bTos { blank with b := .tos }) ∧
    decode 9 0x8 = .ok (.bOpc { blank with b := .opc }) ∧
    decode 9 0x9 = .ok (.bMar { blank with b := .mar }) ∧
    decode 9 0xa = .ok (.bH { blank with b := .h }) := by
  decide
/-- The C-bus rows (30_encoding R91). -/
theorem test_decode_c :
    decode 9 0x10000 = .ok (.cH { blank with mask := { noMask with h := true } }) ∧
    decode 9 0x8000 = .ok (.cOpc { blank with mask := { noMask with opc := true } }) ∧
    decode 9 0x4000 = .ok (.cTos { blank with mask := { noMask with tos := true } }) ∧
    decode 9 0x2000 = .ok (.cCpp { blank with mask := { noMask with cpp := true } }) ∧
    decode 9 0x1000 = .ok (.cLv { blank with mask := { noMask with lv := true } }) ∧
    decode 9 0x800 = .ok (.cSp { blank with mask := { noMask with sp := true } }) ∧
    decode 9 0x400 = .ok (.cPc { blank with mask := { noMask with pc := true } }) ∧
    decode 9 0x200 = .ok (.cMdr { blank with mask := { noMask with mdr := true } }) ∧
    decode 9 0x100 = .ok (.cMar { blank with mask := { noMask with mar := true } }) ∧
    decode 9 0x80 = .ok (.cMbr { blank with mask := { noMask with mbr := true } }) := by
  decide
/-- V314: a word of several groups, and every illegal word of that table; the first test that fires gives the row. -/
theorem test_decode_words :
    decode 9 0x00419012a = .ok (.mi ⟨2, .uncond, .pass, ⟨true, true, false, false⟩,
      { noMask with h := true, mar := true }, .read, .h⟩) ∧
    decode 9 0x000600000 = .ok (.illegalShiftConflict 0x000600000) ∧
    decode 9 0x00060003b = .ok (.illegalShiftConflict 0x00060003b) ∧
    decode 9 0x00000000b = .ok (.illegalBUnassigned11 0x00000000b) ∧
    decode 9 0x00000000f = .ok (.illegalBUnassigned12To15 0x00000000f) ∧
    decode 9 0x000000030 = .ok (.illegalMemConflictReadFetch 0x000000030) ∧
    decode 9 0x000000050 = .ok (.illegalMemConflictWriteFetch 0x000000050) ∧
    decode 9 0x000000060 = .ok (.illegalMemConflictWriteRead 0x000000060) ∧
    decode 9 0x400000000 = .error .reservedBits := by decide
/-- V314: the largest legal word, there and back. -/
theorem test_encode_largest :
    (decodeMi 9 0x3ffdfffca).toOption.map encodeMi = some 0x3ffdfffca := by decide

/-! ### The vectors of 95_test_vectors -/

/-- V302, V310: a write of MBR and its two views. -/
theorem test_mbr_views :
    (zeros.write .mbr 0xabcdeff).read .mbr = 0xffffffff ∧ (zeros.write .mbr 0xabcdeff).read .mbru = 0x000000ff ∧
    (zeros.write .mbr 0xff00).read .mbr = 0 ∧ (zeros.write .mbr 0xff80).read .mbr = 0xffffff80 ∧
    (zeros.write .mbr 0x17f).read .mbr = 0x7f := by decide
/-- V311: corner cases of the ALU. -/
theorem test_alu_corners :
    aluResult ⟨true, true, false, false⟩ 0x7fffffff 1 = 0x80000000 ∧
    aluResult ⟨true, true, false, true⟩ 0xffffffff 0xffffffff = 0xffffffff ∧
    aluResult ⟨true, false, true, true⟩ 0x80000000 0 = 0x80000000 ∧
    aluResult ⟨true, true, true, true⟩ 5 3 = 0xfffffffe ∧
    aluResult ⟨true, true, true, false⟩ 3 5 = 1 ∧
    aluResult ⟨false, true, true, false⟩ 0x99 0 = 0xffffffff ∧
    aluResult ⟨true, true, false, false⟩ 0xdeadbeef 0xcafef00d = 0xa9acaefc := by decide
/-- V311, column A = 0x80000000, B = 0xffffffff, through the rows: H receives the result, N and Z are in the next
address (JAMN_BIT = JAMZ_BIT = 0). -/
theorem test_alu_rows :
    let row := fun (c : Mi → Instr) (h : Word) (upc : Nat) =>
      nextWith (exec (c { blank with next := 4, jump := .jamnz, mask := { noMask with h := true }, b := .tos })
        { State.reset with regs := { zeros with h := 0x80000000, tos := 0xffffffff } }) (fun t => t.regs.h == h && t.upc == upc)
    row .aluZero 0x0 5 ∧
    row .aluOne 0x1 4 ∧
    row .aluMinus1 0xffffffff 5 ∧
    row .aluMinus1Inc 0x0 5 ∧
    row .aluB 0xffffffff 5 ∧
    row .aluBInc 0x0 5 ∧
    row .aluBDec 0xfffffffe 5 ∧
    row .aluBDecInc 0xffffffff 5 ∧
    row .aluA 0x80000000 5 ∧
    row .aluAInc 0x80000001 5 ∧
    row .aluNotA 0x7fffffff 4 ∧
    row .aluNegA 0x80000000 5 ∧
    row .aluAdd 0x7fffffff 4 ∧
    row .aluAddInc 0x80000000 5 ∧
    row .aluRsubDec 0x7ffffffe 4 ∧
    row .aluRsub 0x7fffffff 4 := by decide
/-- V312: the shifter. -/
theorem test_shifter :
    shifter .sll8 0x12345678 = 0x34567800 ∧ shifter .sra1 0x80000001 = 0xc0000000 ∧
    shifter .sra1 0x7fffffff = 0x3fffffff ∧ shifter .pass 0x80000001 = 0x80000001 := by decide
/-- V313: bytes under both byte orders, the ranges, and setByte. -/
theorem test_memory_bytes :
    getByte Params.default (at0 0 zeros).mem 1 = .ok 0x6a ∧
    getByte Params.default (at0 0 zeros).mem 255 = .ok 0xdd ∧
    getByte { Params.default with byteOrder := .little } ((Memory.storeWord .little [] 2 0x00ff8001)) 9 = .ok 0x80 ∧
    getByte Params.default (at0 0 zeros).mem 256 = .error (.outOfRangeMem .memByteRead 256) ∧
    getByte Params.default (at0 0 zeros).mem 0xfffffffd = .error (.outOfRangeMem .memByteRead 0xfffffffd) := by decide
theorem test_memory_words :
    getWord Params.default (at0 0 zeros).mem 63 = .ok 0xaabbccdd ∧
    getWord Params.default (at0 0 zeros).mem 64 = .error (.outOfRangeMem .memWordRead 64) ∧
    getWord Params.default (at0 0 zeros).mem 0x80000000 = .error (.outOfRangeMem .memWordRead 0x80000000) ∧
    (setByte Params.default (at0 0 zeros).mem 5 0x1ff).toOption.map (fun m => m.word .big 1) = some 0x00ff002a ∧
    setWord Params.default (at0 0 zeros).mem 64 1 = .error (.outOfRangeMem .memWordWrite 64) := by decide
/-- V315: MBR and MBRU on the B-bus, both operands H, and all ten write-mask bits. -/
theorem test_buses :
    nextWith (step (at0 0x002090002 { zeros with mbrByte := 0x80 }))
      (fun t => t.regs.h == 0xffffff80 && t.upc == 1) ∧
    nextWith (step (at0 0x002090003 { zeros with mbrByte := 0x80 })) (fun t => t.regs.h == 0x00000080) ∧
    nextWith (step (at0 0x00219000a { zeros with h := 3 })) (fun t => t.regs.h == 6) ∧
    nextWith (step (at0 0x0021e0007 { zeros with tos := 9, h := 4 }))
      (fun t => t.regs == { zeros with tos := 9, h := 4 } && t.upc == 1) ∧
    nextWith (step (at0 0x0020bff84 { zeros with sp := 0x17f }))
      (fun t => t.regs == ⟨0x180, 0x180, 0x180, 0x180, 0x180, 0x180, 0x180, 0x180, 0x180, 0x80⟩) := by decide
/-- V316: READ with the old MDR on the B-bus, WRITE, READ over a C-bus write of MDR, FETCH at the new MAR. -/
theorem test_memory_ops :
    nextWith (step (at0 0x002090020 { zeros with mdr := 7, mar := 1 }))
      (fun t => t.regs.h == 7 && t.regs.mdr == 0x2a) ∧
    nextWith (step (at0 0x002000040 { zeros with mdr := 0xcafef00d, mar := 63 }))
      (fun t => t.mem.word .big 63 == 0xcafef00d && t.regs == { zeros with mdr := 0xcafef00d, mar := 63 }) ∧
    nextWith (step (at0 0x0020442a0 { zeros with mar := 1 }))
      (fun t => t.regs == { zeros with mar := 1, tos := 0xffffffff, mbrByte := 0xff, mdr := 0x2a }) ∧
    nextWith (step (at0 0x002080117 { zeros with tos := 255 }))
      (fun t => t.regs == { zeros with tos := 255, mar := 0xff, mbrByte := 0xdd }) ∧
    nextWith (step (at0 0x0020a0411 { zeros with pc := 3 }))
      (fun t => t.regs == { zeros with pc := 4, mbrByte := 0x7f } && t.ticks == [⟨0x0020a0411, true⟩]) := by decide
/-- V316, V323: the failing accesses leave no trace but the status. -/
theorem test_memory_failures :
    nextWith (step (at0 0x002050120 { zeros with mar := 7, h := 0x11 }))
      (fun t => t.status == .failed (.outOfRangeMem .memWordRead 0xffffffff) && t.ticks == [] && t.upc == 0
        && t.regs == { zeros with mar := 7, h := 0x11 }) ∧
    nextWith (step (at0 0x002080147 { zeros with tos := 64, mdr := 5 }))
      (fun t => t.status == .failed (.outOfRangeMem .memWordWrite 64) && t.mem == (at0 0 zeros).mem) ∧
    nextWith (step (at0 0x002080117 { zeros with tos := 256 }))
      (fun t => t.status == .failed (.outOfRangeMem .memByteRead 256) && t.regs.mar == 0) := by decide
/-- V317: the flags are those of the ALU result, not of the shifted value. -/
theorem test_flags_before_shift :
    nextWith (step (at0 0x008c90000 { zeros with mdr := 0x01000000 })) (fun t => t.upc == 4 && t.regs.h == 0) ∧
    nextWith (step (at0 0x009490000 { zeros with mdr := 0x80000000 })) (fun t => t.upc == 5 && t.regs.h == 0) ∧
    nextWith (step (at0 0x009490000 { zeros with mdr := 0x00800000 }))
      (fun t => t.upc == 4 && t.regs.h == 0x80000000) ∧
    nextWith (step (at0 0x008a90000 { zeros with mdr := 1 })) (fun t => t.upc == 4) := by decide
/-- V318, V327: next addresses. -/
theorem test_nextUpc :
    nextUpc 0x004 .jamz Params.default false true = 0x005 ∧
    nextUpc 0x1fe .jamnz { Params.default with jamnBit := 8, jamzBit := 8 } true false = 0x1fe ∧
    nextUpc 0x004 .jamnz { Params.default with jamnBit := 1 } true false = 0x006 ∧
    nextUpc 0x004 .jamn { Params.default with jamnBit := 8, jamzBit := 8 } true false = 0x104 ∧
    nextWith (step (at0 0x00d880007 { zeros with tos := 0xffffffff })) (fun t => t.upc == 7) := by decide
/-- V318: with CS_CAPACITY = 300 a fetch at 300 fails. -/
theorem test_fetch_outOfRange :
    nextWith (step { at0 0 zeros with par := { Params.default with csCapacity := 300 }, upc := 300 })
      (fun t => t.status == .failed (.outOfRangeUpc 300) && t.upc == 300) = true := by decide
/-- V324: an illegal word fails before the hook is asked. -/
theorem test_illegal_word :
    nextWith (step { at0 0x000600000 zeros with hookQueue := [false] })
      (fun t => t.status == .failed (.encodingError .shiftConflict 0x000600000) && t.hookQueue == [false]) = true := by
  decide
/-- V325: a false answer at once; and a machine that stopped takes no step. -/
theorem test_halt :
    nextWith (step { (at0 0x000130000 { zeros with h := 7 }) with hookQueue := [false] })
      (fun t => t.status == .halted && t.regs == { zeros with h := 7 } && t.upc == 0 && t.ticks == []) = true := by
  decide
theorem test_reserved_bits :
    nextWith (step { at0 0 zeros with cs := [(0, 0x400000000)] })
      (fun t => t.status == .failed (.encodingError .reservedBits 0x400000000)) = true := by decide
/-- 60_exceptions R241: the codes. -/
theorem test_failure_codes :
    (Failure.encodingError .shiftConflict 0).code = 1 ∧ (Failure.encodingError .reservedBits 0).code = 4 ∧
    (Failure.outOfRangeUpc 0).code = 5 ∧ (Failure.outOfRangeMem .memByteWrite 0).code = 9 := by decide

/-! ### Witnesses: states and operands that meet the hypotheses of the obligations -/

/-- A record whose write-mask and memory operation are idle, a READ, a WRITE and a FETCH, for the row statements: each
is in range at the last address of the memory and out of range just above it. -/
theorem test_witness_RunsWith :
    (at0 0 zeros).mem.wf = true ∧
    accessOk Params.default { blank with mem := .read } 0 { zeros with mar := 63 } = true ∧
    accessOk Params.default { blank with mem := .read } 0 { zeros with mar := 64 } = false ∧
    accessOk Params.default { blank with mem := .write } 0 { zeros with mar := 0x80000000 } = false ∧
    accessOk Params.default { blank with mem := .write } 0 { zeros with mar := 63 } = true ∧
    accessOk Params.default { blank with mem := .fetch } 0 { zeros with mar := 255 } = true ∧
    accessOk Params.default { blank with mem := .fetch } 0 { zeros with mar := 256 } = false ∧
    accessOk Params.default blank 0 { zeros with mar := 0xffffffff } = true := by decide

/-- The hypotheses of WholeWordCompletes and of the row statements AluRowsWithoutA, AluRowsWithA, ShifterRowsShift,
JumpRowsComputeTheNextAddress, BBusRowsReadTheirRegister: memory is canonical and the access is in range. -/
theorem test_witness_rows :
    (at0 0 { zeros with h := 5, mar := 63 }).mem.wf = true ∧
    accessOk Params.default { blank with mem := .read } (tableCBus (at0 0 { zeros with h := 5, mar := 63 })
      { blank with mem := .read }) (at0 0 { zeros with h := 5, mar := 63 }).regs = true := by decide

/-- CBusRowsWriteTheirRegister: a completed cycle whose mask names MBR, without a FETCH, and not MDR by a READ. -/
theorem test_witness_CBusRowsWriteTheirRegister :
    ¬ (blank.mem = .read ∧ Dest.mbr = .mdr) ∧ ¬ (blank.mem = .fetch ∧ Dest.mbr = .mbr) ∧
    ∃ t, exec (.cMbr blank) (at0 0 { zeros with mbrByte := 5 }) = .next t ∧
      Completed (at0 0 { zeros with mbrByte := 5 }) { blank with mask := { noMask with mbr := true } } 0 0 t := by
  refine ⟨by decide, by decide, _, rfl, ?_, fun _ => rfl, rfl, by decide, rfl, rfl, rfl, rfl, rfl⟩
  intro q; cases q <;> decide

/-- JumpOnBothFlagsOrsBothIn: both jump bits, one designated bit. -/
theorem test_witness_JumpOnBothFlags :
    ({ blank with jump := .jamnz } : Mi).jump = .jamnz ∧ State.reset.par.jamnBit = State.reset.par.jamzBit := by decide

theorem test_witness_Launch :
    Params.default.wf = true ∧ Memory.wf [(255, 0xdd)] = true ∧ Memory.within 64 [(255, 0xdd)] = true ∧
    { Params.default with csCapacity := 513 }.wf = false ∧ { Params.default with resetUpc := 512 }.wf = false ∧
    { Params.default with jamnBit := 9 }.wf = false ∧ { Params.default with csCapacity := 0 }.wf = false ∧
    Memory.wf [(2, 7), (1, 8)] = false ∧ Memory.wf [(1, 7), (1, 8)] = false ∧ Memory.within 64 [(256, 1)] = false := by decide

theorem test_witness_DecodeAndEncodeAreInverse :
    ({ blank with next := 511 } : Mi).wf 9 = true ∧ ∃ m, decodeMi 9 0x3ffdfffca = .ok m := by
  exact ⟨by decide, _, rfl⟩

theorem test_witness_DecodeGivesTheInstructionOfItsWord :
    (Instr.aluOne { blank with next := 511, alu := ⟨false, false, false, true⟩ }).wellFormed 9 = true ∧
    (Instr.illegalShiftConflict 0x3ffffffff).wellFormed 9 = true ∧
    (Instr.illegalBUnassigned11 0x00000003b).wellFormed 9 = true ∧
    (Instr.illegalBUnassigned12To15 0x00000000f).wellFormed 9 = true ∧
    (Instr.illegalMemConflictWriteRead 0x000000070).wellFormed 9 = true ∧
    (Instr.illegalMemConflictWriteFetch 0x000000050).wellFormed 9 = true ∧
    (Instr.illegalMemConflictReadFetch 0x000000030).wellFormed 9 = true := by decide

theorem test_witness_WordIsLegalExactlyWhenNoIllegalRowSelectsIt :
    (0x3ffffffff : Nat) < 2 ^ (25 + 9) ∧ (∀ p ∈ illegalPatterns, p.selects 0x3ffdfffca = false) ∧
    ¬ (∀ p ∈ illegalPatterns, p.selects 0x00000000b = false) := by decide

theorem test_witness_BothShifterBits :
    (at0 0x000600000 zeros).status = .running ∧ fetchRaw (at0 0x000600000 zeros) = .ok 0x000600000 ∧
    0x000600000 < 2 ^ (at0 0x000600000 zeros).par.miWidth ∧ Nat.testBit 0x000600000 22 = true ∧
    Nat.testBit 0x000600000 21 = true := by decide

/-- StepRunsTheDecodedInstruction: an illegal word, and a legal one under each answer of the hook. -/
theorem test_witness_StepRunsTheDecodedInstruction :
    (at0 0x000130000 zeros).status = .running ∧ fetchRaw (at0 0x000130000 zeros) = .ok 0x000130000 ∧
    (∃ i, decode 9 0x000130000 = .ok i ∧ i.isIllegal = false) ∧ hookAnswer (at0 0x000130000 zeros) = true ∧
    hookAnswer { (at0 0x000130000 zeros) with hookQueue := [false] } = false ∧
    (∃ i, decode 9 0x000600000 = .ok i ∧ i.isIllegal = true) := by
  exact ⟨by decide, by decide, ⟨_, rfl, by decide⟩, by decide, by decide, ⟨_, rfl, by decide⟩⟩

/-- StepIsTheMicroCycleOfTheSpec and StatusIsLeftOnlyFromRunning: each status. -/
theorem test_witness_statuses :
    State.reset.status = .running ∧ State.reset.halt.status = .halted ∧
    (State.reset.fail (.outOfRangeUpc 512)).status = .failed (.outOfRangeUpc 512) := by decide

theorem test_witness_EveryRow : (Instr.memRead blank).record = some { blank with mem := .read } := by decide

/-- StepKeepsTheInvariant, LaunchParametersNeverChange, RegistersChangeOnlyWhereTheWordSaysSo (H changes) and
TickDoneIsEmittedOncePerCompletedCycle (completed): a state of the invariant that takes a step. -/
theorem test_witness_completedStep :
    (at0 0x000130000 zeros).Inv ∧ ∃ t, step (at0 0x000130000 zeros) = .next t ∧ t.status = .running ∧
      t.regs.read .h ≠ (at0 0x000130000 zeros).regs.read .h := by
  exact ⟨⟨by decide, by decide, by decide, by decide⟩, _, rfl, by decide, by decide⟩

/-- FailingCycleChangesOnlyTheStatus, StatusIsLeftOnlyFromRunning and TickDone (failed): a failed fetch, decode and
memory operation. -/
theorem test_witness_failingSteps :
    (∃ t, step { (at0 0 zeros) with upc := 512 } = .next t ∧ t.status = .failed (.outOfRangeUpc 512)) ∧
    (∃ t, step (at0 0x000600000 zeros) = .next t ∧
      t.status = .failed (.encodingError .shiftConflict 0x000600000)) ∧
    (∃ t, step (at0 0x000000040 { zeros with mar := 64 }) = .next t ∧
      t.status = .failed (.outOfRangeMem .memWordWrite 64)) := by
  exact ⟨⟨_, rfl, by decide⟩, ⟨_, rfl, by decide⟩, ⟨_, rfl, by decide⟩⟩

/-- FalseAnswerHaltsWithoutSideEffects and StatusIsLeftOnlyFromRunning (halted). -/
theorem test_witness_FalseAnswer :
    (∃ m, decodeMi 9 0x000130000 = .ok m) ∧
    hookAnswer { (at0 0x000130000 zeros) with hookQueue := [false] } = false ∧
    fetchRaw { (at0 0x000130000 zeros) with hookQueue := [false] } = .ok 0x000130000 ∧
    ∃ t, step { (at0 0x000130000 zeros) with hookQueue := [false] } = .next t ∧ t.status = .halted := by
  exact ⟨⟨_, rfl⟩, by decide, by decide, _, rfl, by decide⟩

/-- FetchReadsTheControlStoreOrFails: the last index inside and the first outside. -/
theorem test_witness_Fetch :
    511 < Params.default.csCapacity ∧ Params.default.csCapacity ≤ 512 ∧
    fetchRaw { (at0 0 zeros) with upc := 512 } = .error (.outOfRangeUpc 512) := by decide

/-- TestsOfACycleAreMadeInOrder: each clause with every later test failing as well. -/
theorem test_witness_TestsInOrder :
    (∃ c, decodeMi 9 0x000600040 = .error c) ∧
    fetchRaw (at0 0x000600040 { zeros with mar := 64 }) = .ok 0x000600040 ∧
    fetchRaw (at0 0x000000040 { zeros with mar := 64 }) = .ok 0x000000040 ∧
    decodeMi 9 0x000000040 = .ok { blank with mem := .write } ∧
    hookAnswer { (at0 0x000000040 { zeros with mar := 64 }) with hookQueue := [false] } = false ∧
    hookAnswer (at0 0x000000040 { zeros with mar := 64 }) = true ∧
    accessOk Params.default { blank with mem := .write }
      (tableCBus (at0 0x000000040 { zeros with mar := 64 }) { blank with mem := .write })
      { zeros with mar := 64 } = false := by
  exact ⟨⟨_, rfl⟩, by decide, by decide, by decide, by decide, by decide, by decide⟩

/-- MemoryFailuresAreExactlyTheOutOfRangeRequests: at the last address and just above it, for each request. -/
theorem test_witness_MemoryFailures :
    nextWith (step (at0 0x000000020 { zeros with mar := 63 })) (fun t => t.status == .running) ∧
    nextWith (step (at0 0x000000020 { zeros with mar := 64 }))
      (fun t => t.status == .failed (.outOfRangeMem .memWordRead 64)) ∧
    nextWith (step (at0 0x000000040 { zeros with mar := 63 })) (fun t => t.status == .running) ∧
    nextWith (step (at0 0x000000010 { zeros with mar := 255 })) (fun t => t.status == .running) ∧
    nextWith (step (at0 0x000000010 { zeros with mar := 256 }))
      (fun t => t.status == .failed (.outOfRangeMem .memByteRead 256)) := by decide

theorem test_witness_FullControlStore :
    (at0 0x000130000 { zeros with h := 1 }).Inv ∧
    (at0 0x000130000 zeros).par.csCapacity = 2 ^ (at0 0x000130000 zeros).par.nextAddrWidth ∧
    ∃ t, step (at0 0x000130000 { zeros with h := 1 }) = .next t := by
  exact ⟨⟨by decide, by decide, by decide, by decide⟩, by decide, _, rfl⟩

/-- HookIsOfferedTheCurrentInstruction: a cycle that offers, and one that fails before. -/
theorem test_witness_HookIsOffered :
    hookOffer (at0 0x00419012a zeros) ≠ none ∧ hookOffer (at0 0x000600000 zeros) = none := by decide

theorem test_witness_LoadedWord :
    1 ≤ State.reset.par.csCapacity ∧ decode 9 (0x000130000 % 2 ^ 34) = decode 9 0x000130000 ∧
    (∃ i, decode 9 (0x000130000 % 2 ^ 34) = .ok i ∧ i.isIllegal = false) ∧
    State.reset.upc < State.reset.par.csCapacity := by
  exact ⟨by decide, by decide, ⟨_, rfl, by decide⟩, by decide⟩

/-- FlagsComeFromTheAluResult, second clause: a RUNNING state whose word completes. -/
theorem test_witness_Flags :
    (at0 0 zeros).status = .running ∧ ∃ t, exec (.mi blank) (at0 0 zeros) = .next t ∧ t.status = .running := by
  exact ⟨by decide, _, rfl, by decide⟩

/-- ReadRowLoadsAWordAndNoneChecksNothing and WriteRowStoresAndFetchRowLoadsAByte: out of range, by the new MAR. -/
theorem test_witness_outOfRangeRows :
    wordInRange Params.default (afterCBus { noMask with mar := true } 64 zeros .mar) = false ∧
    wordInRange Params.default (afterCBus { noMask with mar := true } 63 zeros .mar) = true ∧
    byteInRange Params.default (fetchAddressAfter Params.default { noMask with mar := true } 256 zeros) = false ∧
    byteInRange Params.default
      (fetchAddressAfter { Params.default with fetchAddrReg := .pc } { noMask with pc := true } 255 zeros) = true := by
  decide

theorem test_witness_fetchAccess :
    ∃ x2 m2, fetchAccess Params.default { zeros with mar := 255 } (at0 0 zeros).mem = .ok (x2, m2) ∧
      x2.read .mbru = 0xdd := by
  exact ⟨_, _, rfl, by decide⟩

theorem test_witness_WriteOfAnOrdinaryRegister : Dest.h ≠ .mbr ∧ Reg.sp ≠ regOf .h := by decide

theorem test_witness_UnusedBField :
    blank.alu.enb = false ∧ ∃ t, exec (.mi blank) (at0 0 { zeros with tos := 7 }) = .next t := by
  exact ⟨by decide, _, rfl⟩

theorem test_witness_FlagsAreOred :
    Nat.testBit 0x005 Params.default.jamnBit = true ∧ Nat.testBit 0x005 Params.default.jamzBit = true := by decide

/-- WordsReadBackAsStored, GetByteSelectsTheLane, SetByteReplacesOneLane: canonical memory, the last address in range and
the first out of it. -/
theorem test_witness_primitives :
    (at0 0 zeros).mem.wf = true ∧ wordInRange Params.default 63 = true ∧ wordInRange Params.default 64 = false ∧
    byteInRange Params.default 255 = true ∧ byteInRange Params.default 256 = false ∧
    byteInRange Params.default 0xffffffff = false := by decide

theorem test_witness_BytesOfAStoredWord :
    (at0 0 zeros).mem.wf = true ∧ 4 * 63 + 3 < 2 ^ 31 ∧
    ∃ m2, setWord Params.default (at0 0 zeros).mem (BitVec.ofNat 32 63) 0xdeadbeef = .ok m2 ∧
      getByte Params.default m2 (BitVec.ofNat 32 (4 * 63 + 3)) = .ok 0xef := by
  exact ⟨by decide, by decide, _, rfl, by decide⟩

theorem test_witness_NegativeAddresses : (0x80000000 : Word).getLsbD 31 = true := by decide

/-- MemoryChangesOnlyInTheWordWritten: a WRITE to the last word changes its last byte. -/
theorem test_witness_MemoryChanges :
    (at0 0x002000040 { zeros with mdr := 0xcafef00d, mar := 63 }).Inv ∧
    ∃ t, step (at0 0x002000040 { zeros with mdr := 0xcafef00d, mar := 63 }) = .next t ∧
      t.mem.read 255 ≠ (at0 0x002000040 { zeros with mdr := 0xcafef00d, mar := 63 }).mem.read 255 := by
  exact ⟨⟨by decide, by decide, by decide, by decide⟩, _, rfl, by decide⟩

/-- LoadingSetsOneWordAndOneEntry: the last word of the memory, the first word outside it, and a loaded entry. -/
theorem test_witness_Loading :
    State.reset.Inv ∧ 63 < State.reset.par.memWords ∧ State.reset.par.memWords ≤ 64 ∧
    (State.reset.loadWord 63 0xaabbccdd).mem.word .big 63 = 0xaabbccdd ∧
    (State.reset.loadEntry 7 0x2a).cs.entry Params.default 7 = 0x2a := by
  exact ⟨⟨by decide, by decide, by decide, by decide⟩, by decide, by decide, by decide, by decide⟩

/-- Words that nothing has set hold any value (92_eei_decisions D18), and a READ of one runs: from reset, M[0] is still
unset, and the cycle completes whatever it holds. -/
theorem test_read_of_unset_memory_runs :
    nextWith (step (State.reset.withFetchWord 34 0x002000020)) (fun t => t.status == .running && t.upc == 1) := by
  decide

/-- The per-instruction family: a well-formed instruction. -/
theorem test_witness_EncodingSelectsRow :
    (Instr.cMbr { blank with mask := { noMask with mbr := true } }).wellFormed 9 = true := by decide

end Sys2Proof.Tests
end

namespace Sys2Proof.Machine

/-! ### What a step can answer -/

/-- Everything the meaning of an instruction can be: the cycle of some datapath for a legal row, the failure of its word
for an illegal one (30_encoding R100, section 5). -/
theorem exec_cases (i : Instr) :
    (i.isIllegal = false ∧ ∃ d, ∀ s, exec i s = runCycle d s) ∨
    (i.isIllegal = true ∧ ∃ c raw, i.illegalWord = some raw ∧
      ∀ s, exec i s = .next (s.fail (.encodingError c raw))) := by
  cases i with
  | illegalShiftConflict | illegalBUnassigned11 | illegalBUnassigned12To15 | illegalMemConflictWriteRead
  | illegalMemConflictWriteFetch | illegalMemConflictReadFetch => exact .inr ⟨rfl, _, _, rfl, fun _ => rfl⟩
  | memNone m =>
    -- named, because `rfl` alone unfolds `noAccess` and no longer finds the datapath
    exact .inl ⟨rfl, { datapath { m with mem := .idle } with access := noAccess }, fun _ => rfl⟩
  | _ => exact .inl ⟨rfl, _, fun _ => rfl⟩

/-- The next state of an instruction: the failure alone, or the commit of registers, memory, `upc` and one event
(45_execution_cycle R223). -/
theorem exec_next {i : Instr} {s t : State} (h : exec i s = .next t) :
    (∃ f, t = s.fail f) ∨
    ∃ x m u e, t = { s with regs := x, mem := m, upc := u, ticks := e :: s.ticks } := by
  obtain ⟨-, d, hd⟩ | ⟨-, c, raw, -, hfail⟩ := exec_cases i
  · rw [hd] at h
    obtain ⟨f, -, hrun⟩ | ⟨x, m, -, hrun⟩ := runCycle_cases d s <;> rw [hrun] at h <;> cases h
    · exact .inl ⟨f, rfl⟩
    · exact .inr ⟨x, m, _, _, rfl⟩
  · rw [hfail] at h
    cases h
    exact .inl ⟨_, rfl⟩

/-- The next state of a step: a failure before the hook is asked; after its answer the halt, the failure of the memory
operation, or the commit (45_execution_cycle R216 to R219). -/
theorem step_next {s t : State} (h : step s = .next t) :
    s.status = .running ∧
    ((∃ f, t = s.fail f) ∨ t = s.asked.halt ∨ (∃ f, t = s.asked.fail f) ∨
      ∃ x m u e, t = { s.asked with regs := x, mem := m, upc := u, ticks := e :: s.asked.ticks }) := by
  obtain ⟨-, he⟩ | ⟨_, -, he⟩ | ⟨hs, hcases⟩ := engine_cases exec s
  · cases he.symm.trans h
  · cases he.symm.trans h
  refine ⟨hs, ?_⟩
  obtain ⟨f, -, he⟩ | ⟨raw, -, ⟨c, -, he⟩ | ⟨i, -, ⟨hi, he⟩ | ⟨-, -, he⟩ | ⟨-, -, he⟩⟩⟩ := hcases
  case inl | inr.inl =>
    cases he.symm.trans h
    exact .inl ⟨_, rfl⟩
  case inr.inr.inl =>
    obtain ⟨hlegal, -⟩ | ⟨-, c, raw, -, hfail⟩ := exec_cases i
    · cases hlegal.symm.trans hi
    · cases (he.trans (hfail s)).symm.trans h
      exact .inl ⟨_, rfl⟩
  case inr.inr.inr.inl => exact .inr (.inr (exec_next (he.symm.trans h)))
  case inr.inr.inr.inr =>
    cases he.symm.trans h
    exact .inr (.inl rfl)

/-- A failed machine takes no step (10_state R33, 60_exceptions R253). -/
theorem step_of_failed {s : State} {f : Failure} (h : s.status = .failed f) : step s = .fault (.failed f) := by
  simp only [step, engine, h]

/-! ### What a failure leaves unchanged -/

theorem sameButStatus_fail (s : State) (f : Failure) : SameButStatus s (s.fail f) := ⟨rfl, rfl, rfl, rfl, rfl, rfl⟩

/-- The same after the hook's answer has been used up, which only the model's record of the hook shows. -/
theorem sameButStatus_asked_fail (s : State) (f : Failure) : SameButStatus s (s.asked.fail f) :=
  ⟨s.asked_regs, s.asked_upc, s.asked_mem, s.asked_par, s.asked_cs, s.asked_ticks⟩

/-- Settles O17: a step can fail before the hook is asked or after, each time by `State.fail` alone; the halt and the
commit of a RUNNING state do not end in FAILED (00_scope R16, 60_exceptions R240, R246, R252, R253, the spec's decision
D14). -/
theorem failingCycleChangesOnlyTheStatus : Obligations.FailingCycleChangesOnlyTheStatus := by
  intro s t f hstep hfailed
  refine ⟨?_, step_of_failed hfailed⟩
  obtain ⟨hrunning, ⟨g, rfl⟩ | rfl | ⟨g, rfl⟩ | ⟨x, m, u, e, rfl⟩⟩ := step_next hstep
  · exact sameButStatus_fail s g
  · cases s.asked.halt_status.symm.trans hfailed
  · exact sameButStatus_asked_fail s g
  · cases hrunning.symm.trans (s.asked_status.symm.trans hfailed)

end Sys2Proof.Machine

namespace Sys2Proof.Machine

/-! ### The register file after reset, and the two views of its byte -/

/-- A read before any write returns 0 under every name, the two views of the byte included (10_state R28, R29). -/
@[simp] theorem Regs.read_reset (r : Reg) : Regs.reset.read r = 0 := by
  cases r <;> rfl

/-- Settles O1: whatever the launch, the register file is `Regs.reset`, which reads 0 under every name. -/
theorem resetClearsTheRegisterFile : Obligations.ResetClearsTheRegisterFile := by
  intro p cs image r
  rw [State.resetOf_regs]
  exact ⟨Regs.read_reset r, rfl⟩

/-- Zero extension shows the byte's own bits, and 0 past them (00_scope R13). -/
theorem getLsbD_zext8 (b : Byte) (i : Nat) : (zext8 b).getLsbD i = b.getLsbD i := by
  have hbit : b.getLsbD i = true → i < 32 := fun h => (BitVec.lt_of_getLsbD h).trans (by decide)
  simpa only [zext8, BitVec.getLsbD_setWidth, Bool.and_eq_right_iff_imp, decide_eq_true_iff] using hbit

theorem getLsbD_sext8_of_lt (b : Byte) {i : Nat} (hi : i < 8) : (sext8 b).getLsbD i = b.getLsbD i := by
  have hi32 : i < 32 := by omega
  simp only [sext8, BitVec.getLsbD_signExtend, hi, hi32, decide_true, Bool.true_and, if_true]

/-- Above the byte, sign extension repeats the byte's top bit (00_scope R13). -/
theorem getLsbD_sext8_of_ge (b : Byte) {i : Nat} (hi : 8 ≤ i) (hi32 : i < 32) :
    (sext8 b).getLsbD i = b.getLsbD 7 := by
  have hbyte : ¬ i < 8 := by omega
  simp only [sext8, BitVec.getLsbD_signExtend, hbyte, hi32, decide_true, Bool.true_and, if_false,
    BitVec.msb_eq_getLsbD_last]

/-- Settles O40: each view, bit by bit, in terms of the one byte (10_state R24). -/
theorem mbrAndMbruAreViewsOfOneByte : Obligations.MbrAndMbruAreViewsOfOneByte := by
  intro x
  have hmbr : x.read .mbr = sext8 x.mbrByte := rfl
  have hmbru : x.read .mbru = zext8 x.mbrByte := rfl
  rw [hmbr, hmbru]
  refine ⟨rfl, rfl, fun i hi => ?low, fun i hi => ?mbruHigh, fun i hi hi32 => ?mbrHigh⟩
  case low => rw [getLsbD_sext8_of_lt _ hi, getLsbD_zext8]
  case mbruHigh => rw [getLsbD_zext8, BitVec.getLsbD_of_ge _ _ hi]
  case mbrHigh => rw [getLsbD_sext8_of_ge _ hi hi32, getLsbD_sext8_of_lt _ (by decide : 7 < 8)]

end Sys2Proof.Machine

namespace Sys2Proof.Machine

/-! ### The word and byte primitives, in range and out of range -/

/-- In range a word address is the index of its word (20_memory R52, R54). -/
theorem getWord_of_inRange {p : Params} (m : Memory) {a : Word} (ha : wordInRange p a = true) :
    getWord p m a = .ok (m.word p.byteOrder a.toNat) := by
  rw [getWord, if_pos ha, toInt_toNat_of_nonneg ((wordInRange_iff p a).mp ha).1]

theorem getWord_of_outOfRange {p : Params} (m : Memory) {a : Word} (ha : wordInRange p a = false) :
    getWord p m a = .error (.outOfRangeMem .memWordRead a) :=
  if_neg (Bool.eq_false_iff.mp ha)

theorem setWord_of_inRange {p : Params} (m : Memory) {a : Word} (v : Word) (ha : wordInRange p a = true) :
    setWord p m a v = .ok (m.storeWord p.byteOrder a.toNat v) := by
  rw [setWord, if_pos ha, toInt_toNat_of_nonneg ((wordInRange_iff p a).mp ha).1]

theorem setWord_of_outOfRange {p : Params} (m : Memory) {a : Word} (v : Word) (ha : wordInRange p a = false) :
    setWord p m a v = .error (.outOfRangeMem .memWordWrite a) :=
  if_neg (Bool.eq_false_iff.mp ha)

/-- In range the byte is the lane of its offset in the word of its index (20_memory R53, R56). -/
theorem getByte_of_inRange {p : Params} (m : Memory) {a : Word} (ha : byteInRange p a = true) :
    getByte p m a = .ok (byteOfWord p.byteOrder (m.word p.byteOrder (widx a).toNat) (off a)) := by
  have hoff : off a < 4 := Nat.mod_lt _ (by decide)
  rw [getByte, if_pos ha, byteOfWord_word _ _ _ _ hoff]

theorem getByte_of_outOfRange {p : Params} (m : Memory) {a : Word} (ha : byteInRange p a = false) :
    getByte p m a = .error (.outOfRangeMem .memByteRead a) :=
  if_neg (Bool.eq_false_iff.mp ha)

/-! ### A word read after a word is stored -/

theorem getWord_storeWord_same {p : Params} {m : Memory} (hm : m.wf = true) {a : Word} (v : Word)
    (ha : wordInRange p a = true) : getWord p (m.storeWord p.byteOrder a.toNat v) a = .ok v := by
  rw [getWord_of_inRange _ ha, Memory.word_storeWord hm, if_pos rfl]

/-- At any other address, in range or not, getWord answers as before: distinct addresses have distinct indices
(20_memory R55). -/
theorem getWord_storeWord_other {p : Params} {m : Memory} (hm : m.wf = true) {a a' : Word} (v : Word) (hne : a' ≠ a) :
    getWord p (m.storeWord p.byteOrder a.toNat v) a' = getWord p m a' := by
  have hindex : a'.toNat ≠ a.toNat := fun h => hne (BitVec.eq_of_toNat_eq h)
  cases ha' : wordInRange p a' with
  | true => rw [getWord_of_inRange _ ha', getWord_of_inRange _ ha', Memory.word_storeWord hm, if_neg hindex]
  | false => rw [getWord_of_outOfRange _ ha', getWord_of_outOfRange _ ha']

/-- Settles O46: in range `setWord` stores at the word of index `a.toNat`, which alone reads as something new. -/
theorem wordsReadBackAsStored : Obligations.WordsReadBackAsStored := by
  intro p m a v hm
  refine ⟨fun ha => ⟨getWord_of_inRange m ha, m.storeWord p.byteOrder a.toNat v, ?_⟩, fun ha => ?_⟩
  · exact ⟨setWord_of_inRange m v ha, getWord_storeWord_same hm v ha, fun _ => getWord_storeWord_other hm v⟩
  · exact ⟨getWord_of_outOfRange m ha, setWord_of_outOfRange m v ha⟩

/-- Settles O47: the shifted and cut word of R56 is `byteOfWord` written out. -/
theorem getByteSelectsTheLane : Obligations.GetByteSelectsTheLane := fun _ m _ =>
  ⟨getByte_of_inRange m, getByte_of_outOfRange m⟩

end Sys2Proof.Machine

namespace Sys2Proof.Machine

/-! ### The byte of a word and its two extensions, as numbers -/

theorem sext8_eq_ofInt (b : Byte) : sext8 b = BitVec.ofInt 32 b.toInt := rfl

theorem zext8_eq_ofNat (b : Byte) : zext8 b = BitVec.ofNat 32 b.toNat := (BitVec.ofNat_toNat 32 b).symm

theorem toNat_lowByte (v : Word) : (lowByte v).toNat = v.toNat % 256 := BitVec.toNat_setWidth 8 v

/-! ### What each register reads after one write (40_register_file_and_buses R111, R112) -/

@[simp] theorem Regs.read_mbr_write_mbr (x : Regs) (v : Word) : (x.write .mbr v).read .mbr = sext8 (lowByte v) := rfl

@[simp] theorem Regs.read_mbru_write_mbr (x : Regs) (v : Word) : (x.write .mbr v).read .mbru = zext8 (lowByte v) := rfl

/-- The frame of a write of MBR: every name but its two views (10_state R25). -/
theorem Regs.read_write_mbr_other (x : Regs) (v : Word) {r : Reg} (hmbr : r ≠ .mbr) (hmbru : r ≠ .mbru) :
    (x.write .mbr v).read r = x.read r := by
  rw [Regs.read_write_mbr, if_neg hmbr, if_neg hmbru]

theorem Regs.read_write_same (x : Regs) {q : Dest} (hq : q ≠ .mbr) (v : Word) : (x.write q v).read (regOf q) = v := by
  rw [Regs.read_write x q hq, if_pos rfl]

/-- The frame of a write of an ordinary register: every other name (10_state R25). -/
theorem Regs.read_write_other (x : Regs) {q : Dest} (hq : q ≠ .mbr) (v : Word) {r : Reg} (hr : r ≠ regOf q) :
    (x.write q v).read r = x.read r := by
  rw [Regs.read_write x q hq, if_neg hr]

/-- MBRU is no destination (40_register_file_and_buses R113). -/
theorem mbru_ne_regOf (q : Dest) : Reg.mbru ≠ regOf q := by
  cases q <;> decide

/-- A FETCH that succeeds is a write of MBR with the byte at its address, and leaves the memory. -/
theorem fetchAccess_ok {p : Params} {x1 x2 : Regs} {m m2 : Memory} (h : fetchAccess p x1 m = .ok (x2, m2)) :
    ∃ byte, getByte p m (x1.fetchAddress p) = .ok byte ∧ x2 = x1.write .mbr (zext8 byte) ∧ m2 = m := by
  unfold fetchAccess at h
  split at h
  next byte hbyte =>
    cases h
    exact ⟨byte, hbyte, rfl, rfl⟩
  next => cases h

/-- Settles O41: a C-bus write and a FETCH are the one write of MBR, with the byte `v[7:0]` or the byte fetched; no
other destination is read back as MBRU. -/
theorem writeOfMbrUpdatesBothViews : Obligations.WriteOfMbrUpdatesBothViews := by
  refine ⟨fun x v => ?cbus, fun p x1 x2 m m2 h => ?fetch, fun x q v hq => ?otherDest⟩
  case cbus =>
    refine ⟨sext8_eq_ofInt (lowByte v), ?_, fun r => Regs.read_write_mbr_other x v⟩
    rw [Regs.read_mbru_write_mbr, zext8_eq_ofNat, toNat_lowByte]
  case fetch =>
    obtain ⟨byte, hbyte, rfl, rfl⟩ := fetchAccess_ok h
    refine ⟨byte, hbyte, rfl, ?_, ?_, fun r => Regs.read_write_mbr_other x1 _⟩
    · rw [Regs.read_mbru_write_mbr, lowByte_zext8, zext8_eq_ofNat]
    · rw [Regs.read_mbr_write_mbr, lowByte_zext8, sext8_eq_ofInt]
  case otherDest => exact Regs.read_write_other x hq v (mbru_ne_regOf q)

/-- Settles O42: read-back and frame of the ordinary write, and the frame of the write of MBR. -/
theorem writeOfAnOrdinaryRegisterChangesItAlone : Obligations.WriteOfAnOrdinaryRegisterChangesItAlone := fun x _ v =>
  ⟨fun hq => ⟨Regs.read_write_same x hq v, fun _ => Regs.read_write_other x hq v⟩,
    fun _ => Regs.read_write_mbr_other x v⟩

end Sys2Proof.Machine

namespace Sys2Proof.Machine

/-! ### The ALU and its flags, as numbers and bit by bit -/

/-- An operand gated by its control line, as a number (41_alu R152). -/
theorem toNat_gated (on : Bool) (x : Word) : (if on then x else 0).toNat = if on then x.toNat else 0 :=
  apply_ite BitVec.toNat _ _ _

theorem toNat_complemented (on : Bool) (x : Word) :
    (if on then ~~~x else x).toNat = if on then 2 ^ 32 - 1 - x.toNat else x.toNat := by
  rw [apply_ite BitVec.toNat, BitVec.toNat_not]

theorem flagZ_eq_true_iff (r : Word) : flagZ r = true ↔ r.toNat = 0 := by
  rw [flagZ_eq, decide_eq_true_iff]
  exact BitVec.toNat_inj.symm

/-- Settles O30: the sum of the gated operands and the increment, each as a number; Z then speaks of that sum. -/
theorem aluAddsModuloTwoToThe32 : Obligations.AluAddsModuloTwoToThe32 := by
  intro k a b a1 a2 b1
  have hsum : (aluResult k a b).toNat = (a2 + b1 + (if k.inc then 1 else 0)) % 2 ^ 32 := by
    have hinc : (if k.inc then 1 else 0 : Word).toNat = if k.inc then 1 else 0 := toNat_gated k.inc 1
    simp only [aluResult, BitVec.toNat_add, toNat_complemented, toNat_gated, hinc, Nat.mod_add_mod, a1, a2, b1]
  exact ⟨hsum, rfl, by rw [flagZ_eq_true_iff, hsum]⟩

theorem flagN_eq_true_iff (r : Word) : flagN r = true ↔ r.toInt < 0 := by
  rw [flagN_eq, decide_eq_true_iff]

theorem flagZ_eq_true_iff_bits (r : Word) : flagZ r = true ↔ ∀ i, i < 32 → r.getLsbD i = false := by
  rw [flagZ_eq, decide_eq_true_iff]
  constructor
  · rintro rfl i -
    exact BitVec.getLsbD_zero
  · intro h
    exact BitVec.eq_of_getLsbD_eq fun i hi => (h i hi).trans BitVec.getLsbD_zero.symm

/-- Settles O31: N is bit 31 and Z says that bit is 0 as all others; a cycle of MI that leaves the machine RUNNING has
not failed, so it has committed the next address of its own flags (44_next_address R206). -/
theorem flagsComeFromTheAluResult : Obligations.FlagsComeFromTheAluResult := by
  refine ⟨fun r => ⟨rfl, flagN_eq_true_iff r, flagZ_eq_true_iff_bits r, ?notBoth⟩, fun m s t _ hexec hrunning => ?next⟩
  case notBoth =>
    rintro ⟨hn, hz⟩
    have hbit : flagN r = false := (flagZ_eq_true_iff_bits r).mp hz 31 (by decide)
    cases hn.symm.trans hbit
  case next =>
    obtain ⟨f, -, hfail⟩ | ⟨x2, m2, -, hcommit⟩ := runCycle_cases (datapath m) s
    · cases hfail.symm.trans hexec
      cases (s.fail_status f).symm.trans hrunning
    · cases hcommit.symm.trans hexec
      rfl

/-! ### The completed cycle of a whole word -/

/-- The registers the commit takes over: what the C-bus writes left, and what the memory operation loads over it
(43_memory_ops R190 to R193). -/
theorem read_accessResult {s : State} {m : Mi} {c : Word} (hok : accessOk s.par m c s.regs = true) (q : Reg) :
    (accessResult m.mem s.par (s.regs.writeMask m.mask c) s.mem).1.read q = registerAfter s m c q := by
  cases hm : m.mem with
  | idle | write =>
    simp only [accessResult, registerAfter, hm]
    exact read_writeMask s.regs m.mask c q
  | read =>
    have hrange : wordInRange s.par (afterCBus m.mask c s.regs .mar) = true := by simpa only [accessOk, hm] using hok
    have hindex := toInt_toNat_of_nonneg ((wordInRange_iff _ _).mp hrange).1
    simp only [accessResult, Regs.read_write _ .mdr (by decide), mar_writeMask, hindex, read_writeMask]
    cases q <;> simp [registerAfter, hm, regOf]
  | fetch =>
    have hoff : off (fetchAddressAfter s.par m.mask c s.regs) < 4 := Nat.mod_lt _ (by decide)
    simp only [accessResult, Regs.read_write_mbr, lowByte_zext8, fetchAddress_writeMask, read_writeMask,
      ← byteOfWord_word s.par.byteOrder _ _ _ hoff]
    cases q <;> simp [registerAfter, hm, fetchedByte, byteOfWord, sext8, zext8]

/-- The memory the commit takes over: a WRITE's four bytes and no other (43_memory_ops R192, 20_memory R55, R59). -/
theorem read_mem_accessResult {s : State} {m : Mi} {c : Word} (hmem : s.mem.wf = true)
    (hok : accessOk s.par m c s.regs = true) (a : Nat) :
    (accessResult m.mem s.par (s.regs.writeMask m.mask c) s.mem).2.read a = byteAfter s m c a := by
  cases hm : m.mem with
  | idle | read | fetch => simp [accessResult, byteAfter, hm]
  | write =>
    have hrange : wordInRange s.par (afterCBus m.mask c s.regs .mar) = true := by simpa only [accessOk, hm] using hok
    have hindex := toInt_toNat_of_nonneg ((wordInRange_iff _ _).mp hrange).1
    simp only [accessResult, byteAfter, hm, mar_writeMask, mdr_writeMask, hindex, Memory.read_storeWord hmem,
      byteOfWord, true_and]

/-- A whole word whose memory operation is in range commits its registers, memory, next address and event
(45_execution_cycle R216, R223). -/
theorem exec_mi_of_accessOk {s : State} {m : Mi} (hok : accessOk s.par m (tableCBus s m) s.regs = true) :
    exec (.mi m) s = .next { s with
      regs := (accessResult m.mem s.par (s.regs.writeMask m.mask (tableCBus s m)) s.mem).1
      mem := (accessResult m.mem s.par (s.regs.writeMask m.mask (tableCBus s m)) s.mem).2
      upc := upcAfter s m (tableResult s m)
      ticks := ⟨encodeMi m, m.mem == .fetch⟩ :: s.ticks } := by
  have halu : aluResult m.alu s.regs.h (s.regs.read m.b) = tableResult s m := aluResult_eq_table _ _ _
  have hshift : shifter m.shift (tableResult s m) = tableCBus s m := shifter_eq_shifted _ _
  have haccess : memAccess m.mem s.par (s.regs.writeMask m.mask (tableCBus s m)) s.mem =
      .ok (accessResult m.mem s.par (s.regs.writeMask m.mask (tableCBus s m)) s.mem) := by
    rw [memAccess_eq, accessInRange_writeMask, if_pos hok]
  simp only [exec, execMi, runCycle, datapath, halu, hshift, haccess, nextUpc_eq_upcAfter, isFetch_eq_beq]

theorem runsWith_mi (m : Mi) (s : State) : RunsWith s (.mi m) m (tableResult s m) := fun hmem hok =>
  ⟨_, exec_mi_of_accessOk hok, read_accessResult hok, read_mem_accessResult hmem hok, rfl, rfl, rfl, rfl, rfl, rfl, rfl⟩

/-- A row that means what the whole word of its record means completes as that word does (30_encoding R100). -/
theorem runsWith_of_exec_eq_mi {s : State} {i : Instr} {m : Mi} (h : exec i s = exec (.mi m) s) :
    RunsWith s i m (tableResult s m) := by
  unfold RunsWith
  rw [h]
  exact runsWith_mi m s

/-! ### The ALU rows -/

/-- The table's result in place of the four-line ALU is no change (41_alu R152, 30_encoding R92). -/
theorem datapath_with_aluTable (m : Mi) : { datapath m with alu := aluTable m.alu } = datapath m := by
  have halu : aluTable m.alu = aluResult m.alu := funext₂ fun a b => (aluResult_eq_table m.alu a b).symm
  rw [halu]
  rfl

/-- The rule of a row whose record holds the control lines `k` and whose meaning puts in the table's result for `k`. -/
theorem aluRowRule_of_table {row : Mi → Instr} {k : AluCtl} {bits : Nat}
    (hrecord : ∀ m, (row m).record = some { m with alu := k })
    (hexec : ∀ m s, exec (row m) s = runCycle { datapath { m with alu := k } with alu := aluTable k } s)
    (hbits : bitAt k.ena 20 ||| bitAt k.enb 19 ||| bitAt k.inva 18 ||| bitAt k.inc 17 = bits) :
    AluRowRule row k bits (aluTable k) := by
  intro m s
  refine ⟨?_, runsWith_of_exec_eq_mi (m := { m with alu := k }) ?_⟩
  · rw [encode_of_record (hrecord m), encodeMi_and_alu, hbits]
  · rw [hexec, datapath_with_aluTable { m with alu := k }]
    rfl

/-- Settles O28: each of the eight rows takes its result column of 30_encoding R92's table. -/
theorem aluRowsWithoutA : Obligations.AluRowsWithoutA := by
  refine ⟨?zero, ?one, ?minus1, ?minus1Inc, ?b, ?bInc, ?bDec, ?bDecInc⟩ <;>
    exact aluRowRule_of_table (fun _ => rfl) (fun _ _ => rfl) rfl

/-- For ALU_RSUB, Z compares the operands (41_alu R175). -/
theorem flagZ_rsub (a b : Word) : flagZ (aluResult ⟨true, true, true, true⟩ a b) = decide (a = b) := by
  rw [aluResult_eq_table, flagZ_eq]
  exact decide_eq_decide.mpr (sub_eq_zero.trans eq_comm)

/-- Settles O29: the eight rows as in O28; at A = 1, B = 0x80000000 the difference wraps to 0x7fffffff, whose sign is
0. -/
theorem aluRowsWithA : Obligations.AluRowsWithA := by
  refine ⟨?a, ?aInc, ?notA, ?negA, ?add, ?addInc, ?rsubDec, ?rsub, flagZ_rsub, by decide⟩ <;>
    exact aluRowRule_of_table (fun _ => rfl) (fun _ _ => rfl) rfl

end Sys2Proof.Machine

namespace Sys2Proof.Machine

/-! ### The shifter rows, and the shifter bit by bit -/

/-- What a shifter row shows of its word: its two bits, and the completion of a whole word whose shift field is `k`. -/
theorem shiftRow_encodes_and_runsWith {row : Mi → Instr} {k : Shift} {bits : Nat}
    (hrecord : ∀ m, (row m).record = some { m with shift := k })
    (hexec : ∀ m s, exec (row m) s = exec (.mi { m with shift := k }) s)
    (hbits : bitAt k.isSll8 22 ||| bitAt k.isSra1 21 = bits) (m : Mi) (s : State) :
    encode (row m) &&& 0x000600000 = bits ∧ RunsWith s (row m) { m with shift := k } (tableResult s m) := by
  refine ⟨?_, runsWith_of_exec_eq_mi (m := { m with shift := k }) (hexec m s)⟩
  rw [encode_of_record (hrecord m), encodeMi_and_shift, hbits]

/-- `c[31:8] = r[23:0]` and `c[7:0] = 0` (42_shifter R182). -/
theorem getLsbD_sll8 (r : Word) {i : Nat} (hi : i < 32) :
    (sll8 r).getLsbD i = if i < 8 then false else r.getLsbD (i - 8) := by
  rw [sll8, BitVec.getLsbD_shiftLeft, decide_eq_true hi, Bool.true_and]
  by_cases hlow : i < 8 <;> simp only [hlow, decide_true, decide_false, Bool.not_true, Bool.not_false,
    Bool.false_and, Bool.true_and, if_true, if_false]

/-- `c[30:0] = r[31:1]` and `c[31] = r[31]` (42_shifter R183). -/
theorem getLsbD_sra1 (r : Word) {i : Nat} (hi : i < 32) :
    (sra1 r).getLsbD i = if i = 31 then r.getLsbD 31 else r.getLsbD (i + 1) := by
  rw [sra1, BitVec.getLsbD_sshiftRight, decide_eq_false (by omega : ¬ 32 ≤ i), Bool.not_false, Bool.true_and]
  by_cases htop : i = 31
  · rw [if_pos htop, if_neg (by omega : ¬ 1 + i < 32), BitVec.msb_eq_getLsbD_last]
  · rw [if_neg htop, if_pos (by omega : 1 + i < 32), Nat.add_comm]

/-- Settles O32: a row that puts in its own shift means what the whole word with that shift field means, whose C-bus
value `shifted` gives as a number and whose flags are those of the ALU result. -/
theorem shifterRowsShift : Obligations.ShifterRowsShift := by
  refine ⟨fun m s => ⟨?none, ?sll8, ?sra1⟩, fun r _ hi => ⟨rfl, getLsbD_sll8 r hi, getLsbD_sra1 r hi⟩⟩ <;>
    exact shiftRow_encodes_and_runsWith (fun _ => rfl) (fun _ _ => rfl) rfl m s

end Sys2Proof.Machine

namespace Sys2Proof.Machine

/-! ### The jump rows -/

/-- A flag that is off ORs nothing in (44_next_address R200). -/
@[simp] theorem flagAt_false (bit : Nat) : flagAt false bit = 0 := Nat.zero_shiftLeft bit

theorem nextUpc_uncond (a : Nat) (p : Params) (n z : Bool) : nextUpc a .uncond p n z = a := by
  simp only [nextUpc, Jump.isJamn, Jump.isJamz, Bool.false_and, flagAt_false, Nat.or_zero]

theorem nextUpc_jamn (a : Nat) (p : Params) (n z : Bool) : nextUpc a .jamn p n z = a ||| flagAt n p.jamnBit := by
  simp only [nextUpc, Jump.isJamn, Jump.isJamz, Bool.true_and, Bool.false_and, flagAt_false, Nat.or_zero]

theorem nextUpc_jamz (a : Nat) (p : Params) (n z : Bool) : nextUpc a .jamz p n z = a ||| flagAt z p.jamzBit := by
  simp only [nextUpc, Jump.isJamn, Jump.isJamz, Bool.true_and, Bool.false_and, flagAt_false, Nat.or_zero]

theorem toNat_flagN (r : Word) : (flagN r).toNat = if r.toInt < 0 then 1 else 0 := by
  rw [flagN_eq, Bool.toNat, Bool.cond_decide]

theorem toNat_flagZ (r : Word) : (flagZ r).toNat = if r = 0 then 1 else 0 := by
  rw [flagZ_eq, Bool.toNat, Bool.cond_decide]

/-- The rule of a row whose jump field is `j` and whose meaning puts in the next address `next` of N and Z, where `next`
is what R200 computes for `j`. -/
theorem jumpRowRule_of_nextUpc {row : Mi → Instr} {j : Jump} {bits : Nat} {next : Params → Nat → Nat → Nat → Nat}
    (hrecord : ∀ m, (row m).record = some { m with jump := j })
    (hexec : ∀ m s, exec (row m) s =
      runCycle { datapath { m with jump := j } with next := fun p n z => next p m.next n.toNat z.toNat } s)
    (hbits : bitAt j.isJamn 24 ||| bitAt j.isJamz 23 = bits)
    (hnext : ∀ a p n z, nextUpc a j p n z = next p a n.toNat z.toNat) : JumpRowRule row j bits next := by
  intro m s r n z
  refine ⟨?bits, runsWith_of_exec_eq_mi (m := { m with jump := j }) ?exec, ?upc⟩
  case bits => rw [encode_of_record (hrecord m), encodeMi_and_jump, hbits]
  case exec =>
    rw [hexec]
    simp only [← hnext]
    rfl
  case upc => rw [← nextUpc_eq_upcAfter, hnext, toNat_flagN, toNat_flagZ]

/-- Settles O33: for each of the three jump fields R200's next address keeps the selected flag alone, which is what the
row puts in. -/
theorem jumpRowsComputeTheNextAddress : Obligations.JumpRowsComputeTheNextAddress := by
  refine ⟨?uncond, ?jamn, ?jamz⟩
  case uncond => exact jumpRowRule_of_nextUpc (fun _ => rfl) (fun _ _ => rfl) rfl nextUpc_uncond
  case jamn => exact jumpRowRule_of_nextUpc (fun _ => rfl) (fun _ _ => rfl) rfl nextUpc_jamn
  case jamz => exact jumpRowRule_of_nextUpc (fun _ => rfl) (fun _ _ => rfl) rfl nextUpc_jamz

end Sys2Proof.Machine

namespace Sys2Proof

/-! ### The row a legal word is named after is one of its rows (30_encoding R100) -/

theorem Mi.record_aluRow (m : Mi) : m.aluRow.record = some m := by
  unfold Mi.aluRow
  split <;> rename_i h <;> simp only [Instr.record, ← h]

theorem Mi.record_shiftRow (m : Mi) : m.shiftRow.record = some m := by
  unfold Mi.shiftRow
  split <;> rename_i h <;> simp only [Instr.record, ← h]

theorem Mi.record_memRow (m : Mi) : m.memRow.record = some m := by
  unfold Mi.memRow
  split <;> rename_i h <;> simp only [Instr.record, ← h]

theorem Mi.record_jumpRow (m : Mi) : m.jumpRow.record = some m := by
  unfold Mi.jumpRow
  split <;> rename_i h <;> simp only [Instr.record, ← h]

theorem Mi.record_bRow (m : Mi) : m.bRow.record = some m := by
  unfold Mi.bRow
  split <;> rename_i h <;> simp only [Instr.record, ← h]

/-- The row of a destination sets that destination's bit, which a mask that names it has set (30_encoding R91). -/
theorem Mi.record_cRow {m : Mi} {q : Dest} (hq : m.mask.names q = true) : (m.cRow q).record = some m := by
  cases q <;> simp only [Mask.names] at hq <;> simp only [Mi.cRow, Instr.record, ← hq]

theorem Mi.record_of_mem_cRows {m : Mi} {i : Instr} (hi : i ∈ m.cRows) : i.record = some m := by
  obtain ⟨q, hq, rfl⟩ := List.mem_map.mp hi
  exact Mi.record_cRow (List.mem_filter.mp hq).2

/-- Every row of a word has the record of the word. -/
theorem Mi.record_of_mem_rows {m : Mi} {i : Instr} (hi : i ∈ m.rows) : i.record = some m := by
  simp only [Mi.rows, List.mem_append, List.mem_cons, List.not_mem_nil, or_false] at hi
  obtain (rfl | rfl | rfl | rfl | rfl | rfl) | hc := hi
  · rfl
  · exact m.record_aluRow
  · exact m.record_shiftRow
  · exact m.record_memRow
  · exact m.record_jumpRow
  · exact m.record_bRow
  · exact Mi.record_of_mem_cRows hc

/-- The row a field group stands for, `MI` for a write-mask of no or several registers, is a row of the word. -/
theorem Mi.mem_rows_of_mem_groups {m : Mi} {g : Bool × Instr} (hg : g ∈ m.groups) : g.2 ∈ m.rows := by
  simp only [Mi.groups, List.mem_cons, List.not_mem_nil, or_false] at hg
  obtain rfl | rfl | rfl | rfl | rfl | rfl := hg
  case inr.inr.inr.inr.inr => -- the write-mask
    dsimp only
    split
    case h_1 i hone => simp [Mi.rows, hone]
    case h_2 => simp [Mi.rows]
  all_goals simp [Mi.rows]

theorem Mi.mem_rows_of_filter_groups {m : Mi} {p : Bool × Instr → Bool} {g : Bool × Instr}
    (hg : m.groups.filter p = [g]) : g.2 ∈ m.rows :=
  have hmem : g ∈ m.groups.filter p := hg ▸ List.mem_singleton_self g
  Mi.mem_rows_of_mem_groups (List.mem_filter.mp hmem).1

/-- Whichever of its rows a word is named after (log 10), it is one of them. -/
theorem Mi.name_mem_rows (m : Mi) : m.name ∈ m.rows := by
  unfold Mi.name
  split
  next => simp [Mi.rows]
  next hg => exact Mi.mem_rows_of_filter_groups hg
  next hg _ _ => exact Mi.mem_rows_of_filter_groups hg
  next => simp [Mi.rows]

@[simp] theorem Mi.record_name (m : Mi) : m.name.record = some m := Mi.record_of_mem_rows m.name_mem_rows

/-- A word that decodes is never an illegal row. -/
@[simp] theorem Mi.isIllegal_name (m : Mi) : m.name.isIllegal = false := by
  rw [Instr.isIllegal, illegalWord_of_record m.record_name, Option.isSome_none]

end Sys2Proof

namespace Sys2Proof.Machine

/-! ### The halt of the hook (45_execution_cycle R218) -/

theorem decode_of_decodeMi_ok {width raw : Nat} {m : Mi} (h : decodeMi width raw = .ok m) :
    decode width raw = .ok m.name := by
  simp only [decode, h]

/-- A halted machine takes no step (10_state R33). -/
theorem step_of_halted {s : State} (h : s.status = .halted) : step s = .fault .halted := by
  simp only [step, engine, h]

/-- With a word that decodes, a false answer decides the step before the instruction runs. -/
theorem step_of_hookAnswer_false {s : State} {raw : Nat} {m : Mi} (hrunning : s.status = .running)
    (hfetch : fetchRaw s = .ok raw) (hdecode : decodeMi s.par.nextAddrWidth raw = .ok m)
    (hanswer : hookAnswer s = false) : step s = .next s.asked.halt := by
  simp [step, engine, hrunning, hfetch, decode_of_decodeMi_ok hdecode, hanswer]

/-- The halt leaves all but the status as it was; that the hook's answer has been used up shows only in the model's
record of the hook. -/
theorem sameButStatus_asked_halt (s : State) : SameButStatus s s.asked.halt :=
  ⟨s.asked_regs, s.asked_upc, s.asked_mem, s.asked_par, s.asked_cs, s.asked_ticks⟩

/-- Settles O18: the step is `State.halt` after the hook's answer has been used up, and `State.halt` sets the status
alone. -/
theorem falseAnswerHaltsWithoutSideEffects : Obligations.FalseAnswerHaltsWithoutSideEffects := by
  intro s raw m hrunning hfetch hdecode hanswer
  have hhalted : s.asked.halt.status = .halted := s.asked.halt_status
  exact ⟨s.asked.halt, step_of_hookAnswer_false hrunning hfetch hdecode hanswer, hhalted,
    sameButStatus_asked_halt s, step_of_halted hhalted⟩

end Sys2Proof.Machine

namespace Sys2Proof.Machine

/-! ### Every row of a word runs the whole word (30_encoding R100) -/

theorem nextUpc_jamnz (a : Nat) (p : Params) (n z : Bool) :
    nextUpc a .jamnz p n z = a ||| flagAt n p.jamnBit ||| flagAt z p.jamzBit := by
  simp only [nextUpc, Jump.isJamn, Jump.isJamz, Bool.true_and]

/-- A jump row that puts in R200's next address for its jump field is no change. -/
theorem runCycle_with_next {m : Mi} {next : Params → Bool → Bool → Nat}
    (hnext : ∀ p n z, nextUpc m.next m.jump p n z = next p n z) (s : State) :
    runCycle { datapath m with next := next } s = exec (.mi m) s := by
  have heq : next = (datapath m).next := funext fun p => funext₂ fun n z => (hnext p n z).symm
  rw [heq]
  rfl

/-- A C-bus row that puts in the mask's writes as one write more is no change (40_register_file_and_buses R131). -/
theorem runCycle_with_cbus {m : Mi} {cbus : Regs → Word → Regs}
    (hcbus : ∀ x c, x.writeMask m.mask c = cbus x c) (s : State) :
    runCycle { datapath m with cbus := cbus } s = exec (.mi m) s := by
  have heq : cbus = (datapath m).cbus := funext₂ fun x c => (hcbus x c).symm
  rw [heq]
  rfl

/-- An ALU row that puts in its table's result is no change (30_encoding R92). -/
theorem runCycle_with_aluTable (m : Mi) (s : State) :
    runCycle { datapath m with alu := aluTable m.alu } s = exec (.mi m) s := by
  rw [datapath_with_aluTable]
  rfl

/-- What a legal row puts in for its part of the cycle is what the general rule of that unit computes. -/
theorem exec_eq_exec_mi_of_record {i : Instr} {m : Mi} (h : i.record = some m) (s : State) :
    exec i s = exec (.mi m) s := by
  cases i with
  | illegalShiftConflict | illegalBUnassigned11 | illegalBUnassigned12To15 | illegalMemConflictWriteRead
  | illegalMemConflictWriteFetch | illegalMemConflictReadFetch => cases h
  | mi | shNone | shSll8 | shSra1 | memNone | memRead | memWrite | memFetch
  | bMdr | bPc | bMbr | bMbru | bSp | bLv | bCpp | bTos | bOpc | bMar | bH =>
    cases h
    rfl
  | aluZero | aluOne | aluMinus1 | aluMinus1Inc | aluB | aluBInc | aluBDec | aluBDecInc
  | aluA | aluAInc | aluNotA | aluNegA | aluAdd | aluAddInc | aluRsubDec | aluRsub =>
    cases h
    exact runCycle_with_aluTable _ s
  | nextUncond => cases h; exact runCycle_with_next (nextUpc_uncond _) s
  | nextJamn => cases h; exact runCycle_with_next (nextUpc_jamn _) s
  | nextJamz => cases h; exact runCycle_with_next (nextUpc_jamz _) s
  | nextJamnz => cases h; exact runCycle_with_next (nextUpc_jamnz _) s
  | cH | cOpc | cTos | cCpp | cLv | cSp | cPc | cMdr | cMar | cMbr =>
    cases h
    refine runCycle_with_cbus (fun x c => ?_) s
    simp only [cbusNaming, Regs.writeMask_names]

end Sys2Proof.Machine

namespace Sys2Proof.Machine

/-! ### The failures of the memory operation (60_exceptions R244, R245) -/

/-- With a word that decodes and a true answer, the step runs the whole word. -/
theorem step_of_hookAnswer_true {s : State} {raw : Nat} {m : Mi} (hrunning : s.status = .running)
    (hfetch : fetchRaw s = .ok raw) (hdecode : decodeMi s.par.nextAddrWidth raw = .ok m)
    (hanswer : hookAnswer s = true) : step s = exec (.mi m) s.asked := by
  rw [← exec_eq_exec_mi_of_record m.record_name]
  simp [step, engine, hrunning, hfetch, decode_of_decodeMi_ok hdecode, hanswer]

theorem tableCBus_asked (s : State) (m : Mi) : tableCBus s.asked m = tableCBus s m := by
  simp only [tableCBus, tableResult, State.asked_regs]

/-- A whole word whose memory operation is out of range fails as that operation does, with nothing committed
(45_execution_cycle R223). -/
theorem exec_mi_of_not_accessOk {s : State} {m : Mi} (hok : accessOk s.par m (tableCBus s m) s.regs = false) :
    exec (.mi m) s = .next (s.fail (accessFailure m.mem s.par (s.regs.writeMask m.mask (tableCBus s m)))) := by
  have halu : aluResult m.alu s.regs.h (s.regs.read m.b) = tableResult s m := aluResult_eq_table _ _ _
  have hshift : shifter m.shift (tableResult s m) = tableCBus s m := shifter_eq_shifted _ _
  have haccess : memAccess m.mem s.par (s.regs.writeMask m.mask (tableCBus s m)) s.mem =
      .error (accessFailure m.mem s.par (s.regs.writeMask m.mask (tableCBus s m))) := by
    rw [memAccess_eq, accessInRange_writeMask, if_neg (Bool.eq_false_iff.mp hok)]
  simp only [exec, execMi, runCycle, datapath, halu, hshift, haccess]

/-- A cycle let run fails with `f` exactly when its memory operation is out of range and `f` is that operation's
failure. -/
theorem status_failed_iff_of_hookAnswer_true {s t : State} {raw : Nat} {m : Mi} (hrunning : s.status = .running)
    (hfetch : fetchRaw s = .ok raw) (hdecode : decodeMi s.par.nextAddrWidth raw = .ok m)
    (hanswer : hookAnswer s = true) (hstep : step s = .next t) (f : Failure) :
    t.status = .failed f ↔ accessOk s.par m (tableCBus s m) s.regs = false ∧
      f = accessFailure m.mem s.par (s.regs.writeMask m.mask (tableCBus s m)) := by
  have hexec : exec (.mi m) s.asked = .next t := 
    (step_of_hookAnswer_true hrunning hfetch hdecode hanswer).symm.trans hstep
  have hasked : accessOk s.asked.par m (tableCBus s.asked m) s.asked.regs =
      accessOk s.par m (tableCBus s m) s.regs := by
    rw [tableCBus_asked, s.asked_par, s.asked_regs]
  cases hok : accessOk s.par m (tableCBus s m) s.regs with
  | true =>
    cases (exec_mi_of_accessOk (hasked.trans hok)).symm.trans hexec
    simp [hrunning]
  | false =>
    cases (exec_mi_of_not_accessOk (hasked.trans hok)).symm.trans hexec
    simp [tableCBus_asked, eq_comm]

/-- The memory operation out of range, request by request, in the words of 43_memory_ops R190: a READ or a WRITE at the
MAR, a FETCH at the fetch address, as the C-bus writes left them. -/
theorem accessFails_iff (p : Params) (m : Mi) (c : Word) (x : Regs) (f : Failure) :
    (accessOk p m c x = false ∧ f = accessFailure m.mem p (x.writeMask m.mask c)) ↔
      (m.mem = .read ∧ f = .outOfRangeMem .memWordRead (afterCBus m.mask c x .mar) ∧
        wordInRange p (afterCBus m.mask c x .mar) = false) ∨
      (m.mem = .write ∧ f = .outOfRangeMem .memWordWrite (afterCBus m.mask c x .mar) ∧
        wordInRange p (afterCBus m.mask c x .mar) = false) ∨
      (m.mem = .fetch ∧ f = .outOfRangeMem .memByteRead (fetchAddressAfter p m.mask c x) ∧
        byteInRange p (fetchAddressAfter p m.mask c x) = false) := by
  cases hm : m.mem <;>
    simp [accessOk, accessFailure, hm, mar_writeMask, fetchAddress_writeMask, and_comm]

theorem wordInRange_eq_false_iff (p : Params) (a : Word) :
    wordInRange p a = false ↔ ¬ (0 ≤ a.toInt ∧ a.toInt < p.memWords) := by
  rw [← wordInRange_iff, Bool.not_eq_true]

/-- The word index of a byte address is negative exactly when the address is (20_memory R53). -/
theorem byteInRange_eq_false_iff (p : Params) (a : Word) :
    byteInRange p a = false ↔ a.toInt < 0 ∨ p.memWords ≤ widx a := by
  have hneg : widx a < 0 ↔ a.toInt < 0 := by unfold widx; omega
  rw [← Bool.not_eq_true, byteInRange_iff]
  omega

/-- Settles O22: a cycle let run fails exactly as its one memory operation does, and that is a READ, a WRITE or a FETCH
out of range; no request raises MEM_BYTE_WRITE (43_memory_ops R195). -/
theorem memoryFailuresAreExactlyTheOutOfRangeRequests :
    Obligations.MemoryFailuresAreExactlyTheOutOfRangeRequests := by
  intro s t raw m a hrunning hfetch hdecode hanswer hstep mar byteAddress
  have hfails := fun f => (status_failed_iff_of_hookAnswer_true hrunning hfetch hdecode hanswer hstep f).trans
    (accessFails_iff s.par m (tableCBus s m) s.regs f)
  have hword : a = mar → (wordInRange s.par mar = false ↔ ¬ (0 ≤ a.toInt ∧ a.toInt < s.par.memWords)) :=
    fun ha => ha ▸ wordInRange_eq_false_iff s.par mar
  have hbyte : a = byteAddress →
      (byteInRange s.par byteAddress = false ↔ a.toInt < 0 ∨ s.par.memWords ≤ widx a) :=
    fun ha => ha ▸ byteInRange_eq_false_iff s.par byteAddress
  refine ⟨?read, ?write, ?fetch, ?byteWrite⟩ <;>
    simp only [hfails, ne_eq, Failure.outOfRangeMem.injEq, reduceCtorEq, true_and, false_and, and_false, or_false,
      false_or, not_false_eq_true]
  case read | write => exact and_congr_right fun _ => and_congr_right hword
  case fetch => exact and_congr_right fun _ => and_congr_right hbyte

end Sys2Proof.Machine

namespace Sys2Proof

/-! ### Decode and encode are inverse (30_encoding R99) -/

/-- Decoding an encoded record reads back each field from its place (30_encoding R81, R96). -/
theorem decodeMi_encodeMi {width : Nat} {m : Mi} (h : m.wf width = true) :
    decodeMi width (encodeMi m) = .ok m := by
  have hfits : ¬ 2 ^ (25 + width) ≤ encodeMi m := Nat.not_le.mpr (encodeMi_lt h)
  simp (disch := decide) only [decodeMi, hfits, if_false, testBit_encodeMi_control, Mi.controlBit, encodeMi_mod,
    encodeMi_shiftRight, Shift.ofBits_bits, Reg.ofCode_code, MemOp.ofBits_bits, Jump.ofBits_bits]

/-- A word is its B field, its control bits and its NEXT_ADDRESS (30_encoding R81). -/
theorem eq_of_fields {v w : Nat} (hb : v % 16 = w % 16)
    (hcontrol : ∀ i, 4 ≤ i → i < 25 → v.testBit i = w.testBit i) (hnext : v >>> 25 = w >>> 25) : v = w := by
  apply Nat.eq_of_testBit_eq
  intro i
  by_cases hlow : i < 4
  · have hmod : ∀ u : Nat, (u % 16).testBit i = u.testBit i := fun u => by
      rw [show (16 : Nat) = 2 ^ 4 from rfl, Nat.testBit_mod_two_pow, decide_eq_true hlow, Bool.true_and]
    rw [← hmod v, ← hmod w, hb]
  by_cases hmid : i < 25
  · exact hcontrol i (Nat.not_lt.mp hlow) hmid
  · have hshift : ∀ u : Nat, (u >>> 25).testBit (i - 25) = u.testBit i := fun u => by
      rw [Nat.testBit_shiftRight, Nat.add_sub_cancel' (Nat.not_lt.mp hmid)]
    rw [← hshift v, ← hshift w, hnext]

/-- The control bits of a decoded record are those of its word (30_encoding R96). -/
theorem controlBit_of_decodeMi {width raw : Nat} {m : Mi} (h : decodeMi width raw = .ok m) :
    ∀ i, 4 ≤ i → i < 25 → m.controlBit i = raw.testBit i := by
  obtain ⟨-, hshift, -, hmem, -, hjump, halu, hmask⟩ := decodeMi_ok h
  obtain ⟨hsll8, hsra1⟩ := Shift.bits_of_ofBits hshift
  obtain ⟨hwrite, hread, hfetch⟩ := MemOp.bits_of_ofBits hmem
  refine forall_controlBit ?_
  simp only [Mi.controlBit, hsll8, hsra1, hwrite, hread, hfetch, hjump, Jump.bits_of_ofBits, halu, hmask, and_self]

theorem encodeMi_of_decodeMi {width raw : Nat} {m : Mi} (h : decodeMi width raw = .ok m) : encodeMi m = raw := by
  obtain ⟨-, -, hb, -, hnext, -⟩ := decodeMi_ok h
  refine eq_of_fields ?_ (fun i h4 h25 => ?_) ?_
  · rw [encodeMi_mod, Reg.code_of_ofCode hb]
  · rw [testBit_encodeMi_control m i h4 h25, controlBit_of_decodeMi h i h4 h25]
  · rw [encodeMi_shiftRight, hnext]

/-- The next address of a decoded record has NEXT_ADDR_WIDTH bits (30_encoding R84). -/
theorem wf_of_decodeMi {width raw : Nat} {m : Mi} (h : decodeMi width raw = .ok m) : m.wf width = true := by
  obtain ⟨hraw, -, -, -, hnext, -⟩ := decodeMi_ok h
  rw [Mi.wf, decide_eq_true_iff, hnext, Nat.shiftRight_eq_div_pow]
  exact Nat.div_lt_of_lt_mul (by rwa [← Nat.pow_add])

/-- Settles O5: a record is read back field by field, and a word that decodes is put together again from the fields its
record holds. -/
theorem decodeAndEncodeAreInverse : Obligations.DecodeAndEncodeAreInverse :=
  ⟨fun _ _ => decodeMi_encodeMi, fun _ _ _ h => ⟨encodeMi_of_decodeMi h, wf_of_decodeMi h⟩⟩

end Sys2Proof

namespace Sys2Proof

/-! ### Which word fails to decode with which cause (30_encoding R96, R97) -/

theorem Shift.ofBits_eq_none_iff (a b : Bool) : Shift.ofBits a b = none ↔ a = true ∧ b = true := by
  cases a <;> cases b <;> simp [Shift.ofBits]

theorem Reg.ofCode_eq_none_iff (n : Nat) : Reg.ofCode n = none ↔ 11 ≤ n := by
  refine ⟨fun h => ?_, Reg.ofCode_unassigned⟩
  by_contra hn
  obtain ⟨r, hr⟩ := Reg.ofCode_assigned (Nat.not_le.mp hn)
  cases h.symm.trans hr

theorem MemOp.ofBits_eq_none_iff (a b c : Bool) :
    MemOp.ofBits a b c = none ↔ 2 ≤ a.toNat + b.toNat + c.toNat := by
  cases a <;> cases b <;> cases c <;> simp [MemOp.ofBits]

/-- Everything `decodeMi` can do: the first of its four tests that fires gives the cause, and a word none of them
rejects has a record (30_encoding R96, R97). -/
theorem decodeMi_cases (width raw : Nat) :
    (2 ^ (25 + width) ≤ raw ∧ decodeMi width raw = .error .reservedBits) ∨
    (¬ 2 ^ (25 + width) ≤ raw ∧
      (((raw.testBit 22 = true ∧ raw.testBit 21 = true) ∧ decodeMi width raw = .error .shiftConflict) ∨
       (¬ (raw.testBit 22 = true ∧ raw.testBit 21 = true) ∧
        ((11 ≤ raw % 16 ∧ decodeMi width raw = .error .bUnassigned) ∨
         (¬ 11 ≤ raw % 16 ∧
          ((2 ≤ (raw.testBit 6).toNat + (raw.testBit 5).toNat + (raw.testBit 4).toNat ∧
              decodeMi width raw = .error .memConflict) ∨
           (¬ 2 ≤ (raw.testBit 6).toNat + (raw.testBit 5).toNat + (raw.testBit 4).toNat ∧
              ∃ m, decodeMi width raw = .ok m))))))) := by
  simp only [← Shift.ofBits_eq_none_iff, ← Reg.ofCode_eq_none_iff, ← MemOp.ofBits_eq_none_iff]
  by_cases hreserved : 2 ^ (25 + width) ≤ raw
  · exact .inl ⟨hreserved, by simp only [decodeMi, hreserved, if_true]⟩
  refine .inr ⟨hreserved, ?_⟩
  cases hshift : Shift.ofBits (raw.testBit 22) (raw.testBit 21) with
  | none => exact .inl ⟨rfl, by simp only [decodeMi, hreserved, if_false, hshift]⟩
  | some shift =>
    refine .inr ⟨nofun, ?_⟩
    cases hb : Reg.ofCode (raw % 16) with
    | none => exact .inl ⟨rfl, by simp only [decodeMi, hreserved, if_false, hshift, hb]⟩
    | some b =>
      refine .inr ⟨nofun, ?_⟩
      cases hmem : MemOp.ofBits (raw.testBit 6) (raw.testBit 5) (raw.testBit 4) with
      | none => exact .inl ⟨rfl, by simp only [decodeMi, hreserved, if_false, hshift, hb, hmem]⟩
      | some mem => exact .inr ⟨nofun, _, by simp only [decodeMi, hreserved, if_false, hshift, hb, hmem]; rfl⟩

/-- Settles O21: the five outcomes of `decodeMi` exclude each other, and so do their tests. -/
theorem decodeFailsWithTheFirstCause : Obligations.DecodeFailsWithTheFirstCause := by
  intro width raw reserved conflict unassigned several
  obtain ⟨hr, h⟩ | ⟨hr, ⟨hc, h⟩ | ⟨hc, ⟨hu, h⟩ | ⟨hu, ⟨hs, h⟩ | ⟨hs, m, h⟩⟩⟩⟩ := decodeMi_cases width raw <;>
    simp [reserved, conflict, unassigned, several, *]

/-- A word decodes exactly when it fits and none of the three field tests fires. -/
theorem exists_decodeMi_ok_iff (width raw : Nat) :
    (∃ m, decodeMi width raw = .ok m) ↔
      ¬ 2 ^ (25 + width) ≤ raw ∧ ¬ (raw.testBit 22 = true ∧ raw.testBit 21 = true) ∧ ¬ 11 ≤ raw % 16 ∧
      ¬ 2 ≤ (raw.testBit 6).toNat + (raw.testBit 5).toNat + (raw.testBit 4).toNat := by
  obtain ⟨hr, h⟩ | ⟨hr, ⟨hc, h⟩ | ⟨hc, ⟨hu, h⟩ | ⟨hu, ⟨hs, h⟩ | ⟨hs, m, h⟩⟩⟩⟩ := decodeMi_cases width raw <;>
    simp [*]

/-! ### The illegal patterns of the table, bit by bit (30_encoding R100) -/

theorem and_two_bits_eq_iff (w i j : Nat) :
    w &&& (2 ^ i ||| 2 ^ j) = 2 ^ i ||| 2 ^ j ↔ w.testBit i = true ∧ w.testBit j = true := by
  refine ⟨fun h => ?_, fun ⟨hi, hj⟩ => Laws.EncodingSelectsRow.and_two_bits rfl hi hj⟩
  have hbit : ∀ k, (2 ^ i ||| 2 ^ j : Nat).testBit k = true → w.testBit k = true := fun k hk => by
    rw [← h, Nat.testBit_and, Bool.and_eq_true] at hk
    exact hk.1
  exact ⟨hbit i (by simp [Nat.testBit_or]), hbit j (by simp [Nat.testBit_or])⟩

theorem and_twelve_eq_iff (w : Nat) : w &&& 0x00000000c = 0x00000000c ↔ 12 ≤ w % 16 := by
  refine ⟨fun h => ?_, Laws.EncodingSelectsRow.and_twelve⟩
  calc 12 = w % 16 &&& 0x00000000c := by rw [← Laws.EncodingSelectsRow.and_fifteen, Nat.and_assoc]; exact h.symm
    _ ≤ w % 16 := Nat.and_le_left

/-- The six rows in the words of decode's tests. -/
theorem selects_illegal_iff (w : Nat) :
    (∃ p ∈ illegalPatterns, p.selects w = true) ↔
      (w.testBit 22 = true ∧ w.testBit 21 = true) ∨ 11 ≤ w % 16 ∨
      2 ≤ (w.testBit 6).toNat + (w.testBit 5).toNat + (w.testBit 4).toNat := by
  have hshift := and_two_bits_eq_iff w 22 21
  have hwriteRead := and_two_bits_eq_iff w 6 5
  have hwriteFetch := and_two_bits_eq_iff w 6 4
  have hreadFetch := and_two_bits_eq_iff w 5 4
  have hb : 11 ≤ w % 16 ↔ w % 16 = 11 ∨ 12 ≤ w % 16 := by omega
  have hmem : 2 ≤ (w.testBit 6).toNat + (w.testBit 5).toNat + (w.testBit 4).toNat ↔
      (w.testBit 6 = true ∧ w.testBit 5 = true) ∨ (w.testBit 6 = true ∧ w.testBit 4 = true) ∨
      (w.testBit 5 = true ∧ w.testBit 4 = true) := by
    cases w.testBit 6 <;> cases w.testBit 5 <;> cases w.testBit 4 <;> decide
  rw [hb, hmem, ← hshift, ← hwriteRead, ← hwriteFetch, ← hreadFetch, ← and_twelve_eq_iff,
    ← Laws.EncodingSelectsRow.and_fifteen]
  simp [illegalPatterns, Pattern.selects, or_assoc]

/-- Settles O7: of a word that fits, the six rows are decode's three other tests. -/
theorem wordIsLegalExactlyWhenNoIllegalRowSelectsIt : Obligations.WordIsLegalExactlyWhenNoIllegalRowSelectsIt := by
  intro width raw hfits
  have hnone : (∀ p ∈ illegalPatterns, p.selects raw = false) ↔ ¬ ∃ p ∈ illegalPatterns, p.selects raw = true := by
    simp only [not_exists, not_and, Bool.not_eq_true]
  rw [hnone, selects_illegal_iff, exists_decodeMi_ok_iff, not_or, not_or]
  exact and_iff_right (Nat.not_le.mpr hfits)

/-- Settles O10: each word is evaluated by decode. -/
theorem tableWordsDecodeAsTheSpecSays : Obligations.TableWordsDecodeAsTheSpecSays := by
  unfold Obligations.TableWordsDecodeAsTheSpecSays
  decide

end Sys2Proof

namespace Sys2Proof

/-! ### The rows of a well-formed word are well formed -/

theorem Mi.wellFormed_aluRow {width : Nat} {m : Mi} (h : m.wf width = true) : m.aluRow.wellFormed width = true := by
  unfold Mi.aluRow
  split <;> rename_i halu <;> simp [Instr.wellFormed, h, halu]

theorem Mi.wellFormed_shiftRow {width : Nat} {m : Mi} (h : m.wf width = true) :
    m.shiftRow.wellFormed width = true := by
  unfold Mi.shiftRow
  split <;> rename_i hshift <;> simp [Instr.wellFormed, h, hshift]

theorem Mi.wellFormed_memRow {width : Nat} {m : Mi} (h : m.wf width = true) : m.memRow.wellFormed width = true := by
  unfold Mi.memRow
  split <;> rename_i hmem <;> simp [Instr.wellFormed, h, hmem]

theorem Mi.wellFormed_jumpRow {width : Nat} {m : Mi} (h : m.wf width = true) : m.jumpRow.wellFormed width = true := by
  unfold Mi.jumpRow
  split <;> rename_i hjump <;> simp [Instr.wellFormed, h, hjump]

theorem Mi.wellFormed_bRow {width : Nat} {m : Mi} (h : m.wf width = true) : m.bRow.wellFormed width = true := by
  unfold Mi.bRow
  split <;> rename_i hb <;> simp [Instr.wellFormed, h, hb]

theorem Mi.wellFormed_cRow {width : Nat} {m : Mi} {q : Dest} (h : m.wf width = true) (hq : m.mask.names q = true) :
    (m.cRow q).wellFormed width = true := by
  cases q <;> simp only [Mask.names] at hq <;> simp only [Mi.cRow, Instr.wellFormed, h, hq, Bool.and_self]

theorem Mi.wellFormed_of_mem_rows {width : Nat} {m : Mi} {i : Instr} (h : m.wf width = true) (hi : i ∈ m.rows) :
    i.wellFormed width = true := by
  simp only [Mi.rows, List.mem_append, List.mem_cons, List.not_mem_nil, or_false] at hi
  obtain (rfl | rfl | rfl | rfl | rfl | rfl) | hc := hi
  · exact h
  · exact Mi.wellFormed_aluRow h
  · exact Mi.wellFormed_shiftRow h
  · exact Mi.wellFormed_memRow h
  · exact Mi.wellFormed_jumpRow h
  · exact Mi.wellFormed_bRow h
  · obtain ⟨q, hq, rfl⟩ := List.mem_map.mp hc
    exact Mi.wellFormed_cRow h (List.mem_filter.mp hq).2

/-! ### Every instruction decodes from its word (30_encoding section 6) -/

theorem Instr.record_wf_of_wellFormed {width : Nat} {i : Instr} {m : Mi} (h : i.wellFormed width = true)
    (hm : i.record = some m) : m.wf width = true := by
  cases i with
  | illegalShiftConflict | illegalBUnassigned11 | illegalBUnassigned12To15 | illegalMemConflictWriteRead
  | illegalMemConflictWriteFetch | illegalMemConflictReadFetch => cases hm
  | mi =>
    cases hm
    exact h
  | _ =>
    cases hm
    exact (Bool.and_eq_true_iff.mp h).1

theorem not_reserved_iff_inContainer (width raw : Nat) :
    ¬ 2 ^ (25 + width) ≤ raw ↔ inContainer width raw = true := by
  rw [inContainer, decide_eq_true_iff, Nat.not_le]

theorem decodeMi_of_shiftConflict {width raw : Nat} (hfits : inContainer width raw = true)
    (hconflict : hasShiftConflict raw = true) : decodeMi width raw = .error .shiftConflict := by
  rw [hasShiftConflict, Bool.and_eq_true] at hconflict
  exact (decodeFailsWithTheFirstCause width raw).2.1.mpr ⟨(not_reserved_iff_inContainer _ _).mpr hfits, hconflict⟩

theorem decodeMi_of_bUnassigned {width raw : Nat} (hfits : inContainer width raw = true)
    (hconflict : hasShiftConflict raw = false) (hb : 11 ≤ raw % 16) :
    decodeMi width raw = .error .bUnassigned := by
  rw [hasShiftConflict, ← Bool.not_eq_true, Bool.and_eq_true] at hconflict
  exact (decodeFailsWithTheFirstCause width raw).2.2.1.mpr
    ⟨(not_reserved_iff_inContainer _ _).mpr hfits, hconflict, hb⟩

theorem decodeMi_of_memConflict {width raw : Nat} (hfits : inContainer width raw = true)
    (hconflict : hasShiftConflict raw = false) (hb : raw % 16 ≤ 10)
    (hmem : 2 ≤ (raw.testBit 6).toNat + (raw.testBit 5).toNat + (raw.testBit 4).toNat) :
    decodeMi width raw = .error .memConflict := by
  rw [hasShiftConflict, ← Bool.not_eq_true, Bool.and_eq_true] at hconflict
  exact (decodeFailsWithTheFirstCause width raw).2.2.2.mpr
    ⟨(not_reserved_iff_inContainer _ _).mpr hfits, hconflict, Nat.not_le.mpr (Nat.lt_succ_of_le hb), hmem⟩

/-- A well-formed illegal instruction is what its word decodes to: the tests before its own pass, and its own fires
(30_encoding R96). -/
theorem decode_illegalWord {width raw : Nat} {i : Instr} (h : i.wellFormed width = true)
    (hraw : i.illegalWord = some raw) : decode width raw = .ok i := by
  cases i <;> cases hraw <;>
    simp only [Instr.wellFormed, Bool.and_eq_true, Bool.not_eq_true', decide_eq_true_eq, beq_iff_eq] at h
  case illegalShiftConflict =>
    obtain ⟨hfits, hconflict⟩ := h
    simp only [decode, decodeMi_of_shiftConflict hfits hconflict]
  case illegalBUnassigned11 =>
    obtain ⟨⟨hfits, hconflict⟩, hb⟩ := h
    simp only [decode, decodeMi_of_bUnassigned hfits hconflict (by omega), hb, if_true]
  case illegalBUnassigned12To15 =>
    obtain ⟨⟨hfits, hconflict⟩, hb⟩ := h
    have hne : ¬ raw % 16 = 11 := by omega
    simp only [decode, decodeMi_of_bUnassigned hfits hconflict (by omega), hne, if_false]
  case illegalMemConflictWriteRead =>
    obtain ⟨⟨⟨⟨hfits, hconflict⟩, hb⟩, hwrite⟩, hread⟩ := h
    have hmem := decodeMi_of_memConflict hfits hconflict hb (by simp [hwrite, hread])
    simp [decode, hmem, hwrite, hread]
  case illegalMemConflictWriteFetch =>
    obtain ⟨⟨⟨⟨⟨hfits, hconflict⟩, hb⟩, hwrite⟩, hread⟩, hfetch⟩ := h
    have hmem := decodeMi_of_memConflict hfits hconflict hb (by simp [hwrite, hread, hfetch])
    simp [decode, hmem, hwrite, hread]
  case illegalMemConflictReadFetch =>
    obtain ⟨⟨⟨⟨⟨hfits, hconflict⟩, hb⟩, hwrite⟩, hread⟩, hfetch⟩ := h
    have hmem := decodeMi_of_memConflict hfits hconflict hb (by simp [hwrite, hread, hfetch])
    simp [decode, hmem, hwrite]

theorem Instr.record_eq_none_iff (i : Instr) : i.record = none ↔ ∃ raw, i.illegalWord = some raw := by
  cases i <;> simp [Instr.record, Instr.illegalWord]

/-- Settles O6: a legal instruction's word decodes to the name of its record, which is one of the record's rows; an
illegal one is its own name. -/
theorem decodeGivesTheInstructionOfItsWord : Obligations.DecodeGivesTheInstructionOfItsWord := by
  intro width i h
  cases hm : i.record with
  | some m =>
    have hwf := Instr.record_wf_of_wellFormed h hm
    have hname : i.canonical = m.name := by simp only [Instr.canonical, hm]
    rw [hname, encode_of_record hm, illegalWord_of_record hm, illegalWord_of_record m.record_name]
    exact ⟨by simp only [decode, decodeMi_encodeMi hwf], Mi.wellFormed_of_mem_rows hwf m.name_mem_rows,
      m.record_name, rfl⟩
  | none =>
    obtain ⟨raw, hraw⟩ := i.record_eq_none_iff.mp hm
    have hself : i.canonical = i := by simp only [Instr.canonical, hm]
    rw [hself, encode_illegal hraw]
    exact ⟨decode_illegalWord h hraw, h, hm, rfl⟩

/-! ### The rows a legal word selects (30_encoding R100) -/

theorem selects_cRow (m : Mi) (q : Dest) : (m.cRow q).pattern.selects (encodeMi m) = m.mask.names q := by
  have hbits : (m.cRow q).pattern.bits = (m.cRow q).pattern.mask := by cases q <;> rfl
  have hne : (0 == (m.cRow q).pattern.mask) = false := by cases q <;> rfl
  rw [Pattern.selects, encodeMi_and_c, hbits]
  cases m.mask.names q
  · exact hne
  · exact beq_self_eq_true _

/-- Among rows of one mask a word selects those whose bits are its field under that mask. -/
theorem filter_selects_of_mask {mask : Nat} {rows : List Instr} (w : Nat) (hmask : ∀ i ∈ rows, i.pattern.mask = mask) :
    rows.filter (fun i => i.pattern.selects w) = rows.filter (fun i => w &&& mask == i.pattern.bits) :=
  List.filter_congr fun i hi => by rw [Pattern.selects, hmask i hi]

/-- Settles O8: the field under a group's mask is the code of the field, and the group's rows list each code once. -/
theorem legalWordSelectsOneRowOfEachGroup : Obligations.LegalWordSelectsOneRowOfEachGroup := by
  intro m selected
  refine ⟨?alu, ?shift, ?mem, ?jump, ?b, selects_cRow m, ?mi⟩
  case alu =>
    refine (filter_selects_of_mask (mask := 0x0001e0000) _ (by simp [Instr.pattern])).trans ?_
    rw [encodeMi_and_alu, Mi.aluRow]
    obtain ⟨ena, enb, inva, inc⟩ := m.alu
    cases ena <;> cases enb <;> cases inva <;> cases inc <;> rfl
  case shift =>
    refine (filter_selects_of_mask (mask := 0x000600000) _ (by simp [Instr.pattern])).trans ?_
    rw [encodeMi_and_shift, Mi.shiftRow]
    cases m.shift <;> rfl
  case mem =>
    refine (filter_selects_of_mask (mask := 0x000000070) _ (by simp [Instr.pattern])).trans ?_
    rw [encodeMi_and_mem, Mi.memRow]
    cases m.mem <;> rfl
  case jump =>
    refine (filter_selects_of_mask (mask := 0x001800000) _ (by simp [Instr.pattern])).trans ?_
    rw [encodeMi_and_jump, Mi.jumpRow]
    cases m.jump <;> rfl
  case b =>
    refine (filter_selects_of_mask (mask := 0x00000000f) _ (by simp [Instr.pattern])).trans ?_
    rw [encodeMi_and_b, Mi.bRow]
    cases m.b <;> rfl
  case mi => exact beq_iff_eq.mpr (Nat.and_zero _)

end Sys2Proof

namespace Sys2Proof.Machine

/-- Settles O13: a row puts in what the general rule of its unit computes, and a word is named after one of its rows,
which all hold its record (log 10). -/
theorem everyRowOfAWordHasTheMeaningOfTheWord : Obligations.EveryRowOfAWordHasTheMeaningOfTheWord :=
  ⟨fun _ _ s h => exec_eq_exec_mi_of_record h s, fun m => ⟨m.name_mem_rows, fun _ => Mi.record_of_mem_rows⟩⟩

/-- Settles O39: the meaning of an illegal row is `State.fail` with its cause. -/
theorem illegalRowsTakeTheirEncodingError : Obligations.IllegalRowsTakeTheirEncodingError := by
  intro raw s takes
  refine ⟨?shiftConflict, ?b11, ?b12To15, ?writeRead, ?writeFetch, ?readFetch⟩ <;>
    exact ⟨_, rfl, rfl, sameButStatus_fail s _, rfl, rfl⟩

end Sys2Proof.Machine

namespace Sys2Proof.Machine

/-! ### Everything one step can do, over the decoded record -/

/-- The commit of a whole word whose memory operation is in range (45_execution_cycle R223): registers, memory, next
address and event. -/
def State.commit (s : State) (m : Mi) : State :=
  { s with
    regs := (accessResult m.mem s.par (s.regs.writeMask m.mask (tableCBus s m)) s.mem).1
    mem := (accessResult m.mem s.par (s.regs.writeMask m.mask (tableCBus s m)) s.mem).2
    upc := upcAfter s m (tableResult s m)
    ticks := ⟨encodeMi m, m.mem == .fetch⟩ :: s.ticks }

/-- The failure of a whole word whose memory operation is out of range (43_memory_ops R190 to R193). -/
def memoryFailure (s : State) (m : Mi) : Failure :=
  accessFailure m.mem s.par (s.regs.writeMask m.mask (tableCBus s m))

@[simp] theorem State.commit_status (s : State) (m : Mi) : (s.commit m).status = s.status := rfl
@[simp] theorem State.commit_ticks (s : State) (m : Mi) :
    (s.commit m).ticks = ⟨encodeMi m, m.mem == .fetch⟩ :: s.ticks := rfl

theorem accessOk_asked (s : State) (m : Mi) :
    accessOk s.asked.par m (tableCBus s.asked m) s.asked.regs = accessOk s.par m (tableCBus s m) s.regs := by
  rw [tableCBus_asked, s.asked_par, s.asked_regs]

theorem memoryFailure_asked (s : State) (m : Mi) : memoryFailure s.asked m = memoryFailure s m := by
  rw [memoryFailure, memoryFailure, tableCBus_asked, s.asked_par, s.asked_regs]

/-- The kind of a failed memory operation is OutOfRange (60_exceptions R241). -/
theorem kind_memoryFailure (s : State) (m : Mi) : (memoryFailure s m).kind = .outOfRange := by
  unfold memoryFailure accessFailure
  cases m.mem <;> rfl

theorem step_of_fetch_error {s : State} {f : Failure} (hrunning : s.status = .running)
    (hfetch : fetchRaw s = .error f) : step s = .next (s.fail f) := by
  simp only [step, engine, hrunning, hfetch]

/-- A word that does not decode fails the step before the hook is asked: RESERVED_BITS by name, the other causes as the
meaning of their illegal row (45_execution_cycle R219). -/
theorem step_of_decodeMi_error {s : State} {raw : Nat} {c : EncodingCause} (hrunning : s.status = .running)
    (hfetch : fetchRaw s = .ok raw) (hdecode : decodeMi s.par.nextAddrWidth raw = .error c) :
    step s = .next (s.fail (.encodingError c raw)) := by
  obtain ⟨m, hok, -⟩ | ⟨hreserved, hd⟩ | ⟨c', i, herror, hd, hillegal, -, hexec⟩ :=
    decode_cases s.par.nextAddrWidth raw
  · cases hok.symm.trans hdecode
  · cases hreserved.symm.trans hdecode
    simp only [step, engine, hrunning, hfetch, hd]
  · cases herror.symm.trans hdecode
    simp only [step, engine, hrunning, hfetch, hd, hillegal, if_true, hexec]

/-- Every outcome of a step of a RUNNING state with the test that decides it (60_exceptions R251): the fetch, decode,
the hook's answer, the range of the memory operation, and else the commit. -/
inductive StepCase (s : State) : State → Prop
  | fetchFails {f : Failure} (hfetch : fetchRaw s = .error f) : StepCase s (s.fail f)
  | decodeFails {raw : Nat} {c : EncodingCause} (hfetch : fetchRaw s = .ok raw)
      (hdecode : decodeMi s.par.nextAddrWidth raw = .error c) : StepCase s (s.fail (.encodingError c raw))
  | halts {raw : Nat} {m : Mi} (hfetch : fetchRaw s = .ok raw) (hdecode : decodeMi s.par.nextAddrWidth raw = .ok m)
      (hanswer : hookAnswer s = false) : StepCase s s.asked.halt
  | memoryFails {raw : Nat} {m : Mi} (hfetch : fetchRaw s = .ok raw)
      (hdecode : decodeMi s.par.nextAddrWidth raw = .ok m) (hanswer : hookAnswer s = true)
      (hrange : accessOk s.par m (tableCBus s m) s.regs = false) : StepCase s (s.asked.fail (memoryFailure s m))
  | completes {raw : Nat} {m : Mi} (hfetch : fetchRaw s = .ok raw)
      (hdecode : decodeMi s.par.nextAddrWidth raw = .ok m) (hanswer : hookAnswer s = true)
      (hrange : accessOk s.par m (tableCBus s m) s.regs = true) : StepCase s (s.asked.commit m)

theorem step_of_not_accessOk {s : State} {raw : Nat} {m : Mi} (hrunning : s.status = .running)
    (hfetch : fetchRaw s = .ok raw) (hdecode : decodeMi s.par.nextAddrWidth raw = .ok m)
    (hanswer : hookAnswer s = true) (hrange : accessOk s.par m (tableCBus s m) s.regs = false) :
    step s = .next (s.asked.fail (memoryFailure s m)) := by
  rw [step_of_hookAnswer_true hrunning hfetch hdecode hanswer, ← memoryFailure_asked]
  exact exec_mi_of_not_accessOk ((accessOk_asked s m).trans hrange)

theorem step_of_accessOk {s : State} {raw : Nat} {m : Mi} (hrunning : s.status = .running)
    (hfetch : fetchRaw s = .ok raw) (hdecode : decodeMi s.par.nextAddrWidth raw = .ok m)
    (hanswer : hookAnswer s = true) (hrange : accessOk s.par m (tableCBus s m) s.regs = true) :
    step s = .next (s.asked.commit m) := by
  rw [step_of_hookAnswer_true hrunning hfetch hdecode hanswer]
  exact exec_mi_of_accessOk ((accessOk_asked s m).trans hrange)

/-- A RUNNING state steps, in one of the five ways. -/
theorem step_running {s : State} (hrunning : s.status = .running) : ∃ t, step s = .next t ∧ StepCase s t := by
  cases hfetch : fetchRaw s with
  | error f => exact ⟨_, step_of_fetch_error hrunning hfetch, .fetchFails hfetch⟩
  | ok raw =>
    cases hdecode : decodeMi s.par.nextAddrWidth raw with
    | error c => exact ⟨_, step_of_decodeMi_error hrunning hfetch hdecode, .decodeFails hfetch hdecode⟩
    | ok m =>
      cases hanswer : hookAnswer s with
      | false => exact ⟨_, step_of_hookAnswer_false hrunning hfetch hdecode hanswer, .halts hfetch hdecode hanswer⟩
      | true =>
        cases hrange : accessOk s.par m (tableCBus s m) s.regs with
        | false =>
          exact ⟨_, step_of_not_accessOk hrunning hfetch hdecode hanswer hrange,
            .memoryFails hfetch hdecode hanswer hrange⟩
        | true =>
          exact ⟨_, step_of_accessOk hrunning hfetch hdecode hanswer hrange,
            .completes hfetch hdecode hanswer hrange⟩

theorem stepCase_of_step {s t : State} (h : step s = .next t) : StepCase s t := by
  obtain ⟨t', h', hcase⟩ := step_running (step_next h).1
  cases h'.symm.trans h
  exact hcase

/-! ### The invariant -/

/-- A next address of the record's width stays one, whatever flags are ORed in: the designated bits lie inside
(44_next_address R200, 00_scope R9). -/
theorem upcAfter_lt {s : State} {m : Mi} (r : Word) (hpar : s.par.wf = true)
    (hm : m.wf s.par.nextAddrWidth = true) : upcAfter s m r < 2 ^ s.par.nextAddrWidth := by
  simp only [Params.wf, Bool.and_eq_true, decide_eq_true_eq] at hpar
  obtain ⟨⟨⟨⟨⟨-, -⟩, hjamn⟩, hjamz⟩, -⟩, -⟩ := hpar
  have hflag : ∀ (c : Prop) [Decidable c] {bit : Nat}, bit < s.par.nextAddrWidth →
      (if c then 2 ^ bit else 0) < 2 ^ s.par.nextAddrWidth := fun c _ bit hbit => by
    split
    · exact Nat.pow_lt_pow_right (by decide) hbit
    · exact Nat.two_pow_pos _
  rw [Mi.wf, decide_eq_true_iff] at hm
  exact Nat.or_lt_two_pow (Nat.or_lt_two_pow hm (hflag _ hjamn)) (hflag _ hjamz)

theorem inv_of_sameButStatus {s t : State} (hs : s.Inv) (h : SameButStatus s t) : t.Inv := by
  obtain ⟨hparams, hupcFits, hmemWf, hmemWithin⟩ := hs
  obtain ⟨-, hupc, hmem, hpar, -, -⟩ := h
  constructor <;> simpa only [hpar, hupc, hmem]

theorem sameButStatus_asked (s : State) : SameButStatus s s.asked :=
  ⟨s.asked_regs, s.asked_upc, s.asked_mem, s.asked_par, s.asked_cs, s.asked_ticks⟩

theorem inv_commit {s : State} {m : Mi} (hs : s.Inv) (hm : m.wf s.par.nextAddrWidth = true)
    (hok : accessOk s.par m (tableCBus s m) s.regs = true) : (s.commit m).Inv := by
  have hrange := (accessInRange_writeMask s.par m (tableCBus s m) s.regs).trans hok
  obtain ⟨hwf, hwithin⟩ := accessResult_keeps hrange hs.memWf hs.memWithin
  exact ⟨hs.params, upcAfter_lt _ hs.params hm, hwf, hwithin⟩

/-- Settles O14: a failure and the halt change the status alone; the commit takes over a next address whose bits all lie
inside NEXT_ADDR_WIDTH, and a memory that the one operation in range has kept canonical and inside its words. -/
theorem stepKeepsTheInvariant : Obligations.StepKeepsTheInvariant := by
  intro s t hs hstep
  cases stepCase_of_step hstep with
  | fetchFails | decodeFails => exact inv_of_sameButStatus hs (sameButStatus_fail s _)
  | halts => exact inv_of_sameButStatus hs (sameButStatus_asked_halt s)
  | memoryFails => exact inv_of_sameButStatus hs (sameButStatus_asked_fail s _)
  | completes _ hdecode _ hrange =>
    have hasked : s.asked.Inv := inv_of_sameButStatus hs (sameButStatus_asked s)
    exact inv_commit hasked (s.asked_par ▸ wf_of_decodeMi hdecode) ((accessOk_asked s _).trans hrange)

end Sys2Proof.Machine

namespace Sys2Proof.Machine

/-! ### What a step leaves unchanged -/

/-- Settles O16: no outcome of a step touches the parameters or the control store (10_state R21). -/
theorem launchParametersNeverChange : Obligations.LaunchParametersNeverChange := by
  intro s t hstep
  cases stepCase_of_step hstep with
  | fetchFails | decodeFails => exact ⟨rfl, rfl⟩
  | halts | memoryFails | completes => exact ⟨s.asked_par, s.asked_cs⟩

/-! ### The fetch (44_next_address R205) -/

theorem fetchRaw_of_ge {s : State} (h : s.par.csCapacity ≤ s.upc) : fetchRaw s = .error (.outOfRangeUpc s.upc) :=
  if_neg (Nat.not_lt.mpr h)

theorem fetchRaw_of_lt {s : State} (h : s.upc < s.par.csCapacity) : fetchRaw s = .ok (s.cs.entry s.par s.upc) :=
  if_pos h

/-- Settles O19: the fetch tests `upc` against CS_CAPACITY, its failure is the step's, and a step changes neither the
control store nor the parameters an entry is read by. -/
theorem fetchReadsTheControlStoreOrFails : Obligations.FetchReadsTheControlStoreOrFails := by
  intro s
  refine ⟨fun h => ⟨fetchRaw_of_ge h, fun hrunning => step_of_fetch_error hrunning (fetchRaw_of_ge h)⟩,
    fetchRaw_of_lt, fun t u hstep => ?_⟩
  obtain ⟨hpar, hcs⟩ := launchParametersNeverChange s t hstep
  rw [hpar, hcs]

/-- Settles O20: the outcome of a step by the first test that fires. -/
theorem testsOfACycleAreMadeInOrder : Obligations.TestsOfACycleAreMadeInOrder := fun s hrunning =>
  ⟨fun h => step_of_fetch_error hrunning (fetchRaw_of_ge h),
    fun _ _ => step_of_decodeMi_error hrunning,
    fun _ _ => step_of_hookAnswer_false hrunning,
    fun _ m hfetch hdecode hanswer hrange =>
      ⟨memoryFailure s m, kind_memoryFailure s m, step_of_not_accessOk hrunning hfetch hdecode hanswer hrange⟩⟩

/-- Settles O9: decode's second test fires, which is the failure of the cycle; the shifter's own two lines are its only
illegal setting. -/
theorem bothShifterBitsFailWithShiftConflict : Obligations.BothShifterBitsFailWithShiftConflict := by
  have hdecode : ∀ width raw : Nat, raw < 2 ^ (25 + width) → raw.testBit 22 = true → raw.testBit 21 = true →
      decodeMi width raw = .error .shiftConflict := fun width raw hfits hsll8 hsra1 =>
    decodeMi_of_shiftConflict (decide_eq_true hfits) (by rw [hasShiftConflict, hsll8, hsra1, Bool.and_self])
  refine ⟨hdecode, fun s raw hrunning hfetch hfits hsll8 hsra1 => ?step, fun r sll8 sra1 => ?shifter⟩
  case step => exact step_of_decodeMi_error hrunning hfetch (hdecode _ _ hfits hsll8 hsra1)
  case shifter => cases sll8 <;> cases sra1 <;> rfl

/-- Settles O23: a full-size control store holds every `upc` of the invariant, and no later test raises
OutOfRange(UPC) (60_exceptions R243). -/
theorem fullControlStoreNeverFailsAtFetch : Obligations.FullControlStoreNeverFailsAtFetch := by
  intro s t u hs hfull hstep hfailed
  have hinside : fetchRaw s = .ok (s.cs.entry s.par s.upc) := fetchRaw_of_lt (hfull ▸ hs.upcFits)
  have hrunning := (step_next hstep).1
  cases stepCase_of_step hstep with
  | fetchFails hfetch => cases hfetch.symm.trans hinside
  | decodeFails => cases hfailed
  | halts => cases hfailed
  | @memoryFails _ m =>
    have hfailure : memoryFailure s m = .outOfRangeUpc u := Status.failed.inj hfailed
    unfold memoryFailure accessFailure at hfailure
    cases hm : m.mem <;> simp only [hm, reduceCtorEq] at hfailure
  | completes =>
    rw [State.commit_status, State.asked_status, hrunning] at hfailed
    cases hfailed

/-! ### The event, the hook's offer and the status -/

/-- Bit 4 of a word is the FETCH of its record (30_encoding R81). -/
theorem testBit_four_of_decodeMi {width raw : Nat} {m : Mi} (h : decodeMi width raw = .ok m) :
    raw.testBit 4 = (m.mem == .fetch) := by
  rw [← controlBit_of_decodeMi h 4 (by decide) (by decide), ← isFetch_eq_beq]
  rfl

/-- Settles O24: only the commit emits, and its event names the word its record encodes to, which is the word fetched. -/
theorem tickDoneIsEmittedOncePerCompletedCycle : Obligations.TickDoneIsEmittedOncePerCompletedCycle := by
  intro s t hstep
  have hrunning := (step_next hstep).1
  cases stepCase_of_step hstep with
  | fetchFails | decodeFails => exact ⟨nofun, fun _ => rfl⟩
  | halts | memoryFails => exact ⟨nofun, fun _ => s.asked_ticks⟩
  | @completes raw m hfetch hdecode =>
    have hstays : (s.asked.commit m).status = .running := s.asked_status.trans hrunning
    refine ⟨fun _ => ⟨raw, hfetch, ?_⟩, fun hne => absurd hstays hne⟩
    rw [State.commit_ticks, s.asked_ticks, encodeMi_of_decodeMi hdecode, testBit_four_of_decodeMi hdecode]

/-- Using up an answer shows in the model's record of the hook (log 7). -/
theorem asked_changes_hook (s : State) : ¬ (s.asked.hookQueue = s.hookQueue ∧ s.asked.hookTick = s.hookTick) := by
  unfold State.asked
  split <;> simp [*]

/-- Settles O25: the offer is made exactly when the word decodes, and every outcome of such a step has used up an answer
(45_execution_cycle R217, R219). -/
theorem hookIsOfferedTheCurrentInstruction : Obligations.HookIsOfferedTheCurrentInstruction := by
  intro s hrunning
  have hoffer : ∀ raw m, fetchRaw s = .ok raw → decodeMi s.par.nextAddrWidth raw = .ok m →
      hookOffer s = some ⟨s.upc, raw, m, raw >>> 25⟩ := fun raw m hfetch hdecode => by
    obtain ⟨-, -, -, -, hnext, -⟩ := decodeMi_ok hdecode
    simp only [hookOffer, hrunning, hfetch, hdecode, hnext]
  refine ⟨hoffer, ?_⟩
  obtain ⟨t, hstep, hcase⟩ := step_running hrunning
  simp only [hstep, Host.Outcome.next.injEq, exists_and_left, exists_eq_left', exists_and_right]
  cases hcase with
  | fetchFails hfetch => simp [hookOffer, hrunning, hfetch]
  | decodeFails hfetch hdecode => simp [hookOffer, hrunning, hfetch, hdecode]
  | halts hfetch hdecode => simp [hoffer _ _ hfetch hdecode]
  | memoryFails hfetch hdecode => simpa [hoffer _ _ hfetch hdecode] using asked_changes_hook s
  | completes hfetch hdecode => simp [hoffer _ _ hfetch hdecode, hrunning]

/-- Settles O15: each outcome of a step has one status, and the tests that lead to it exclude those that lead to another
(10_state section 5, 60_exceptions R251). -/
theorem statusIsLeftOnlyFromRunning : Obligations.StatusIsLeftOnlyFromRunning := by
  refine ⟨fun p cs image => State.resetOf_status p cs image, fun s t hstep => ⟨(step_next hstep).1, ?_⟩⟩
  have hrunning := (step_next hstep).1
  cases stepCase_of_step hstep with
  | fetchFails hfetch => simp [hfetch]
  | decodeFails hfetch hdecode => simp [hfetch, hdecode]
  | halts hfetch hdecode hanswer => simp [hfetch, hdecode, hanswer]
  | @memoryFails _ m hfetch hdecode hanswer hrange =>
    simp [hfetch, hdecode, hanswer, hrange, ← kind_memoryFailure s m]
  | completes hfetch hdecode hanswer hrange => simp [hfetch, hdecode, hanswer, hrange, hrunning]

/-! ### The decoded instruction runs -/

/-- Settles O11: by fetch and decode the engine is at the instruction, and an illegal one is not put to the hook. -/
theorem stepRunsTheDecodedInstruction : Obligations.StepRunsTheDecodedInstruction := by
  intro s raw i hrunning hfetch hdecode
  refine ⟨fun hillegal => ?illegal, fun hlegal hanswer => ?run, fun hlegal hanswer => ?halt⟩
  case illegal => simp only [step, engine, hrunning, hfetch, hdecode, hillegal, if_true]
  case run => simp [step, engine, hrunning, hfetch, hdecode, hlegal, hanswer]
  case halt => simp [step, engine, hrunning, hfetch, hdecode, hlegal, hanswer]

/-- The loader puts the word at the entry the next step fetches (log 15). -/
theorem fetchRaw_withFetchWord {s : State} (nbits w : Nat) (hcap : 1 ≤ s.par.csCapacity) :
    fetchRaw (s.withFetchWord nbits w) = .ok (w % 2 ^ nbits) := by
  have hinside : (s.withFetchWord nbits w).upc < (s.withFetchWord nbits w).par.csCapacity := by
    show (if s.upc < s.par.csCapacity then s.upc else 0) < s.par.csCapacity
    split <;> assumption
  rw [fetchRaw_of_lt hinside]
  exact congrArg Except.ok ((ControlStore.entry_load _ _ _ _ _).trans (if_pos rfl))

/-- Settles O26: the step runs what the loaded word decodes to, on the loader's state with its answer used up. -/
theorem loadedWordRunsInTheNextStep : Obligations.LoadedWordRunsInTheNextStep := by
  intro s nbits w i hcap hdecode hlegal
  obtain ⟨-, hrun, -⟩ := stepRunsTheDecodedInstruction (s.withFetchWord nbits w) _ i rfl
    (fetchRaw_withFetchWord nbits w hcap) hdecode
  refine ⟨(s.withFetchWord nbits w).asked, hrun hlegal rfl, rfl, rfl, rfl, rfl, rfl, fun hinside => ?_⟩
  exact if_pos hinside

end Sys2Proof.Machine

namespace Sys2Proof.Machine

/-! ### The spec's pseudocode, line by line (45_execution_cycle R216) -/

/-- The ten `for each set bit` lines are the writes of the record's mask. -/
theorem cycleCBus_encodeMi (m : Mi) (c : Word) (x : Regs) : cycleCBus (encodeMi m) c x = x.writeMask m.mask c := by
  simp (disch := decide) only [cycleCBus, testBit_encodeMi_control, Mi.controlBit]
  simp [writeIf, Regs.write_if, Regs.writeMask_eq]

theorem cycleMem_encodeMi (p : Params) (m : Mi) (x1 : Regs) (mem : Memory) :
    cycleMem p (encodeMi m) x1 mem = memAccess m.mem p x1 mem := by
  simp (disch := decide) only [cycleMem, testBit_encodeMi_control, Mi.controlBit, memAccess_eq, ← wordInRange_iff,
    ← byteInRange_iff]
  cases m.mem with
  | idle => rfl
  | read =>
    simp only [MemOp.isRead, accessInRange, accessResult, accessFailure, if_true]
    refine if_ctx_congr Iff.rfl (fun hrange => ?_) fun _ => rfl
    rw [toInt_toNat_of_nonneg ((wordInRange_iff _ _).mp hrange).1]
    rfl
  | write =>
    simp only [MemOp.isRead, MemOp.isWrite, accessInRange, accessResult, accessFailure, if_true, reduceCtorEq, if_false]
    refine if_ctx_congr Iff.rfl (fun hrange => ?_) fun _ => rfl
    rw [toInt_toNat_of_nonneg ((wordInRange_iff _ _).mp hrange).1]
  | fetch =>
    simp only [MemOp.isRead, MemOp.isWrite, MemOp.isFetch, accessInRange, accessResult, accessFailure, if_true,
      reduceCtorEq, if_false]
    refine if_ctx_congr Iff.rfl (fun hrange => ?_) fun _ => rfl
    rw [widx_off ((byteInRange_iff _ _).mp hrange).1, Regs.write, lowByte_zext8]

/-- The two shifter lines are the shifter of the record's field. -/
theorem shifter_eq_lines (k : Shift) (r : Word) :
    (if k.isSll8 then r <<< 8 else if k.isSra1 then r.sshiftRight 1 else r) = shifter k r := by
  cases k <;> rfl

/-- The four ALU lines are the ALU of the record's control lines (41_alu R152). -/
theorem aluResult_eq_lines (k : AluCtl) (a b : Word) :
    ((if k.inva then ~~~(if k.ena then a else 0) else if k.ena then a else 0) + (if k.enb then b else 0) +
      if k.inc then 1 else 0) = aluResult k a b := rfl

/-- Steps 2 to 8 of the pseudocode are the meaning of the whole word: with the lines folded into the shared operations,
both commit, or fail, by the result of one memory operation. -/
theorem exec_mi_eq_cycleBody (m : Mi) (s : State) : exec (.mi m) s = .next (cycleBody (encodeMi m) m.b s) := by
  simp (disch := decide) only [exec, execMi, runCycle, datapath, cycleBody, cycleCBus_encodeMi, cycleMem_encodeMi,
    encodeMi_shiftRight, testBit_encodeMi_control, Mi.controlBit, aluResult_eq_lines, shifter_eq_lines]
  cases memAccess m.mem s.par
    (s.regs.writeMask m.mask (shifter m.shift (aluResult m.alu s.regs.h (s.regs.read m.b)))) s.mem <;> rfl

/-! ### The tests of the pseudocode -/

theorem cycle_of_upc_outside {s : State} (h : s.par.csCapacity ≤ s.upc) :
    cycle s = s.fail (.outOfRangeUpc s.upc) := by
  rw [cycle, if_pos h]
  rfl

/-- The pseudocode's tests of the word are decode's, in the same order. -/
theorem cycle_of_decodeMi_error {s : State} {raw : Nat} {c : EncodingCause} (hinside : ¬ s.par.csCapacity ≤ s.upc)
    (hentry : s.cs.entry s.par s.upc = raw) (h : decodeMi s.par.nextAddrWidth raw = .error c) :
    cycle s = s.fail (.encodingError c raw) := by
  simp only [cycle, hinside, if_false, hentry, Params.miWidth]
  obtain ⟨hr, hd⟩ | ⟨hr, ⟨hs, hd⟩ | ⟨hs, ⟨hb, hd⟩ | ⟨hb, ⟨hm, hd⟩ | ⟨-, m, hd⟩⟩⟩⟩ :=
    decodeMi_cases s.par.nextAddrWidth raw <;> cases hd.symm.trans h
  · rw [if_pos hr]
    rfl
  · rw [if_neg hr, if_pos hs]
    rfl
  · rw [if_neg hr, if_neg hs, Reg.ofCode_unassigned hb]
    rfl
  · obtain ⟨r, hcode⟩ := Reg.ofCode_assigned (Nat.not_le.mp hb)
    simp only [if_neg hr, if_neg hs, hcode, if_pos hm]
    rfl

theorem cycle_of_decodeMi_ok {s : State} {raw : Nat} {m : Mi} (hinside : ¬ s.par.csCapacity ≤ s.upc)
    (hentry : s.cs.entry s.par s.upc = raw) (h : decodeMi s.par.nextAddrWidth raw = .ok m) :
    cycle s = if hookAnswer s then cycleBody raw m.b s.asked else s.asked.halt := by
  obtain ⟨hr, hs, -, hm⟩ := (exists_decodeMi_ok_iff _ _).mp ⟨m, h⟩
  obtain ⟨-, -, hcode, -⟩ := decodeMi_ok h
  simp only [cycle, hinside, if_false, hentry, Params.miWidth, if_neg hr, if_neg hs, hcode, if_neg hm]
  rfl

/-- Settles O12: the tests of the pseudocode decide as decode, the hook and the engine do, and its steps 2 to 8 are the
meaning every row of the word has. -/
theorem stepIsTheMicroCycleOfTheSpec : Obligations.StepIsTheMicroCycleOfTheSpec := by
  refine fun s => ⟨fun hrunning => ?_, step_of_halted, fun f => step_of_failed⟩
  obtain ⟨houtside, hfetch⟩ | ⟨hinside, hfetch⟩ := fetchRaw_cases s
  · rw [step_of_fetch_error hrunning hfetch, cycle_of_upc_outside houtside]
  have hinside := Nat.not_le.mpr hinside
  cases hdecode : decodeMi s.par.nextAddrWidth (s.cs.entry s.par s.upc) with
  | error c => rw [step_of_decodeMi_error hrunning hfetch hdecode, cycle_of_decodeMi_error hinside rfl hdecode]
  | ok m =>
    rw [cycle_of_decodeMi_ok hinside rfl hdecode]
    cases hanswer : hookAnswer s with
    | false => rw [step_of_hookAnswer_false hrunning hfetch hdecode hanswer, if_neg Bool.false_ne_true]
    | true =>
      rw [step_of_hookAnswer_true hrunning hfetch hdecode hanswer, if_pos rfl, exec_mi_eq_cycleBody,
        encodeMi_of_decodeMi hdecode]

end Sys2Proof.Machine

namespace Sys2Proof.Machine

/-! ### The whole word and the rows of one group -/

/-- Settles O27: in range, the whole word answers its commit. -/
theorem wholeWordCompletes : Obligations.WholeWordCompletes := runsWith_mi

/-- With both flags sent to one bit, N or Z is `s32(r) <= 0` (41_alu R153). -/
theorem upcAfter_jamnz_sameBit {s : State} {m : Mi} (r : Word) (hjump : m.jump = .jamnz)
    (hbits : s.par.jamnBit = s.par.jamzBit) :
    upcAfter s m r = if r.toInt ≤ 0 then m.next ||| 2 ^ s.par.jamnBit else m.next := by
  have hzero : r = 0 ↔ r.toInt = 0 := BitVec.toInt_inj.symm
  simp only [upcAfter, hjump, Jump.isJamn, Jump.isJamz, true_and, ← hbits, hzero]
  obtain hneg | hz | hpos := Int.lt_trichotomy r.toInt 0
  · rw [if_pos hneg, if_neg (by omega), if_pos (by omega), Nat.or_zero]
  · rw [if_neg (by omega), if_pos hz, if_pos (by omega), Nat.or_zero]
  · rw [if_neg (by omega), if_neg (by omega), if_neg (by omega), Nat.or_zero, Nat.or_zero]

/-- Settles O34: NEXT_JAMNZ puts in R200's next address with both flags. -/
theorem jumpOnBothFlagsOrsBothIn : Obligations.JumpOnBothFlagsOrsBothIn :=
  ⟨jumpRowRule_of_nextUpc (fun _ => rfl) (fun _ _ => rfl) rfl nextUpc_jamnz,
    fun _ _ r => upcAfter_jamnz_sameBit r⟩

/-! ### The memory rows -/

/-- What a memory row shows of its word: its three bits, the completion of a whole word whose memory field is `o`, and
the failure of that operation. -/
theorem memRow_encodes_runsWith_and_fails {row : Mi → Instr} {o : MemOp} {bits : Nat}
    (hrecord : ∀ m, (row m).record = some { m with mem := o })
    (hbits : bitAt o.isWrite 6 ||| bitAt o.isRead 5 ||| bitAt o.isFetch 4 = bits) (m : Mi) (s : State) :
    encode (row m) &&& 0x000000070 = bits ∧ RunsWith s (row m) { m with mem := o } (tableResult s m) ∧
    (accessOk s.par { m with mem := o } (tableCBus s m) s.regs = false →
      exec (row m) s = .next (s.fail (memoryFailure s { m with mem := o }))) := by
  have hexec := exec_eq_exec_mi_of_record (hrecord m) s
  refine ⟨?_, runsWith_of_exec_eq_mi (m := { m with mem := o }) hexec, fun hrange => ?_⟩
  · rw [encode_of_record (hrecord m), encodeMi_and_mem, hbits]
  · rw [hexec]
    exact exec_mi_of_not_accessOk hrange

theorem memoryFailure_read (s : State) (m : Mi) :
    memoryFailure s { m with mem := .read } =
      .outOfRangeMem .memWordRead (afterCBus m.mask (tableCBus s m) s.regs .mar) :=
  congrArg _ (mar_writeMask s.regs m.mask (tableCBus s m))

theorem memoryFailure_write (s : State) (m : Mi) :
    memoryFailure s { m with mem := .write } =
      .outOfRangeMem .memWordWrite (afterCBus m.mask (tableCBus s m) s.regs .mar) :=
  congrArg _ (mar_writeMask s.regs m.mask (tableCBus s m))

theorem memoryFailure_fetch (s : State) (m : Mi) :
    memoryFailure s { m with mem := .fetch } =
      .outOfRangeMem .memByteRead (fetchAddressAfter s.par m.mask (tableCBus s m) s.regs) :=
  congrArg _ (fetchAddress_writeMask s.par s.regs m.mask (tableCBus s m))

/-- Settles O35: READ is the word read of its record; MEM_NONE's operation is never out of range. -/
theorem readRowLoadsAWordAndNoneChecksNothing : Obligations.ReadRowLoadsAWordAndNoneChecksNothing := by
  intro m s address
  obtain ⟨hreadBits, hreadRuns, hreadFails⟩ :=
    memRow_encodes_runsWith_and_fails (row := .memRead) (fun _ => rfl) rfl m s
  obtain ⟨hnoneBits, hnoneRuns, -⟩ := memRow_encodes_runsWith_and_fails (row := .memNone) (fun _ => rfl) rfl m s
  exact ⟨⟨hreadBits, hreadRuns, fun hrange => memoryFailure_read s m ▸ hreadFails hrange⟩, hnoneBits, hnoneRuns, rfl⟩

/-- Settles O36: WRITE and FETCH are the word write and the byte read of their records. -/
theorem writeRowStoresAndFetchRowLoadsAByte : Obligations.WriteRowStoresAndFetchRowLoadsAByte := by
  intro m s address byteAddress
  obtain ⟨hwriteBits, hwriteRuns, hwriteFails⟩ :=
    memRow_encodes_runsWith_and_fails (row := .memWrite) (fun _ => rfl) rfl m s
  obtain ⟨hfetchBits, hfetchRuns, hfetchFails⟩ :=
    memRow_encodes_runsWith_and_fails (row := .memFetch) (fun _ => rfl) rfl m s
  exact ⟨⟨hwriteBits, hwriteRuns, fun hrange => memoryFailure_write s m ▸ hwriteFails hrange⟩,
    hfetchBits, hfetchRuns, fun hrange => memoryFailure_fetch s m ▸ hfetchFails hrange⟩

/-! ### The bus rows -/

/-- The rule of a B-bus row whose record holds the register `b` and whose operand is what `b` reads. -/
theorem bBusRowRule_of_read {row : Mi → Instr} {b : Reg} {code : Nat} {operand : Regs → Word}
    (hrecord : ∀ m, (row m).record = some { m with b := b }) (hcode : b.code = code)
    (hread : ∀ x : Regs, x.read b = operand x) : BBusRowRule row b code operand := by
  intro m s
  have hruns := runsWith_of_exec_eq_mi (exec_eq_exec_mi_of_record (hrecord m) s)
  refine ⟨by rw [encode_of_record (hrecord m), encodeMi_and_b, hcode], ?_⟩
  rw [← hread]
  exact hruns

/-- Settles O37: each row reads the register its code names; the two views of the byte as numbers. -/
theorem bBusRowsReadTheirRegister : Obligations.BBusRowsReadTheirRegister := by
  refine ⟨?mdr, ?pc, ?mbr, ?mbru, ?sp, ?lv, ?cpp, ?tos, ?opc, ?mar, ?h⟩
  case mbr => exact bBusRowRule_of_read (fun _ => rfl) rfl fun x => sext8_eq_ofInt x.mbrByte
  case mbru => exact bBusRowRule_of_read (fun _ => rfl) rfl fun x => zext8_eq_ofNat x.mbrByte
  all_goals exact bBusRowRule_of_read (fun _ => rfl) rfl fun _ => rfl

/-- After the C-bus writes a named destination reads the C-bus value, MBR its low byte (40_register_file_and_buses
R111, R112). -/
theorem afterCBus_of_names {k : Mask} {q : Dest} (hq : k.names q = true) (c : Word) (x : Regs) :
    afterCBus k c x (regOf q) = if q = .mbr then sext8 (lowByte c) else c := by
  cases q <;> exact if_pos hq

/-- Only a READ into MDR and a FETCH into MBR load over what the C-bus writes left. -/
theorem registerAfter_of_not_loaded {s : State} {m : Mi} {c : Word} {q : Reg}
    (hread : ¬ (m.mem = .read ∧ q = .mdr)) (hfetch : ¬ (m.mem = .fetch ∧ (q = .mbr ∨ q = .mbru))) :
    registerAfter s m c q = afterCBus m.mask c s.regs q := by
  cases hm : m.mem <;> cases q <;> simp_all [registerAfter]

theorem regOf_eq_mdr_iff (q : Dest) : regOf q = .mdr ↔ q = .mdr := by
  cases q <;> decide

theorem regOf_eq_mbr_iff (q : Dest) : regOf q = .mbr ↔ q = .mbr := by
  cases q <;> decide

/-- The rule of a C-bus row whose record's mask names `q`. -/
theorem cBusRowRule_of_names {row : Mi → Instr} {q : Dest} {k : Mask → Mask} {bit : Nat}
    (hrecord : ∀ m, (row m).record = some { m with mask := k m.mask })
    (hbit : ∀ m : Mi, (m.cRow q).pattern.mask = bit) (hnames : ∀ mask, (k mask).names q = true) :
    CBusRowRule row q k bit := by
  intro m s m'
  refine ⟨?bit, runsWith_of_exec_eq_mi (m := m') (exec_eq_exec_mi_of_record (hrecord m) s),
    fun t hdone hread hfetch => ?reads⟩
  case bit =>
    have hand := encodeMi_and_c m' q
    rwa [hbit, if_pos (hnames m.mask), ← encode_of_record (hrecord m)] at hand
  case reads =>
    rw [hdone.regs, registerAfter_of_not_loaded (m := m'), afterCBus_of_names (hnames m.mask)]
    · rwa [regOf_eq_mdr_iff]
    · rwa [regOf_eq_mbr_iff, or_iff_left (mbru_ne_regOf q).symm]

/-- Settles O38: each row's record names its destination. -/
theorem cBusRowsWriteTheirRegister : Obligations.CBusRowsWriteTheirRegister := by
  refine ⟨?h, ?opc, ?tos, ?cpp, ?lv, ?sp, ?pc, ?mdr, ?mar, ?mbr⟩ <;>
    exact cBusRowRule_of_names (fun _ => rfl) (fun _ => rfl) fun _ => rfl

end Sys2Proof.Machine

namespace Sys2Proof.Machine

/-! ### What a step changes of registers and memory -/

/-- The destination whose write changes what a register reads: its own name, and MBR for MBRU
(40_register_file_and_buses R112, R113). -/
def writtenBy : Reg → Dest
  | .mdr => .mdr | .pc => .pc | .mbr => .mbr | .mbru => .mbr | .sp => .sp | .lv => .lv
  | .cpp => .cpp | .tos => .tos | .opc => .opc | .mar => .mar | .h => .h

theorem regOf_writtenBy (q : Reg) : regOf (writtenBy q) = q ∨ (writtenBy q = .mbr ∧ q = .mbru) := by
  cases q <;> decide

theorem afterCBus_of_not_names {k : Mask} {q : Reg} (h : k.names (writtenBy q) = false) (c : Word) (x : Regs) :
    afterCBus k c x q = x.read q := by
  cases q <;> exact if_neg (Bool.eq_false_iff.mp h)

@[simp] theorem State.commit_asked_regs (s : State) (m : Mi) : (s.asked.commit m).regs = (s.commit m).regs := by
  simp only [State.commit, tableCBus_asked, s.asked_par, s.asked_regs, s.asked_mem]

@[simp] theorem State.commit_asked_mem (s : State) (m : Mi) : (s.asked.commit m).mem = (s.commit m).mem := by
  simp only [State.commit, tableCBus_asked, s.asked_par, s.asked_regs, s.asked_mem]

/-- Settles O43: only the commit changes registers; one that the mask does not name and the memory operation does not
load reads as before. -/
theorem registersChangeOnlyWhereTheWordSaysSo : Obligations.RegistersChangeOnlyWhereTheWordSaysSo := by
  intro s t q hstep hne
  cases stepCase_of_step hstep with
  | fetchFails | decodeFails => exact absurd rfl hne
  | halts | memoryFails => exact absurd (congrArg (Regs.read · q) s.asked_regs) hne
  | @completes raw m hfetch hdecode hanswer hrange =>
    refine ⟨raw, m, hfetch, hdecode, hanswer, ?_⟩
    by_contra hsays
    obtain ⟨hnamed, hread, hfetched⟩ := by simpa only [not_or] using hsays
    have hunnamed : m.mask.names (writtenBy q) = false :=
      Bool.eq_false_iff.mpr fun hnames => hnamed ⟨_, hnames, regOf_writtenBy q⟩
    refine hne ?_
    calc (s.asked.commit m).regs.read q
        = registerAfter s m (tableCBus s m) q := by rw [State.commit_asked_regs]; exact read_accessResult hrange q
      _ = afterCBus m.mask (tableCBus s m) s.regs q := registerAfter_of_not_loaded hread hfetched
      _ = s.regs.read q := afterCBus_of_not_names hunnamed _ _

/-- A WRITE in range stores the new MDR at the word of the new MAR, inside the memory (43_memory_ops R192). -/
theorem commit_mem_of_write {s : State} {m : Mi} (hwrite : m.mem = .write)
    (hok : accessOk s.par m (tableCBus s m) s.regs = true) :
    (afterCBus m.mask (tableCBus s m) s.regs .mar).toNat < s.par.memWords ∧
    (s.commit m).mem = s.mem.storeWord s.par.byteOrder (afterCBus m.mask (tableCBus s m) s.regs .mar).toNat
      (afterCBus m.mask (tableCBus s m) s.regs .mdr) := by
  have hrange : wordInRange s.par (afterCBus m.mask (tableCBus s m) s.regs .mar) = true := by
    simpa only [accessOk, hwrite] using hok
  obtain ⟨hnonneg, hinside⟩ := (wordInRange_iff _ _).mp hrange
  have hindex := toInt_toNat_of_nonneg hnonneg
  refine ⟨by omega, ?_⟩
  simp only [State.commit, accessResult, hwrite, mar_writeMask, mdr_writeMask, hindex]

theorem commit_mem_of_not_write {s : State} {m : Mi} (h : m.mem ≠ .write) : (s.commit m).mem = s.mem := by
  cases hm : m.mem with
  | write => exact absurd hm h
  | idle | read | fetch => simp only [State.commit, accessResult, hm]

/-- Settles O51: only the commit of a WRITE changes the memory, and it stores the one word. -/
theorem memoryChangesOnlyInTheWordWritten : Obligations.MemoryChangesOnlyInTheWordWritten := by
  intro s t a hs hstep hne
  cases stepCase_of_step hstep with
  | fetchFails | decodeFails => exact absurd rfl hne
  | halts | memoryFails => exact absurd (congrArg (Memory.read · a) s.asked_mem) hne
  | @completes raw m hfetch hdecode _ hrange =>
    rw [State.commit_asked_mem] at hne ⊢
    have hwrite : m.mem = .write := by
      by_contra h
      exact hne (by rw [commit_mem_of_not_write h])
    obtain ⟨hinside, hmem⟩ := commit_mem_of_write hwrite hrange
    have hword : a / 4 = (afterCBus m.mask (tableCBus s m) s.regs .mar).toNat := by
      by_contra h
      exact hne (by rw [hmem, Memory.read_storeWord hs.memWf, if_neg h])
    refine ⟨raw, m, hfetch, hdecode, hwrite, hword, hword ▸ hinside, ?_⟩
    rw [hmem, Memory.word_storeWord hs.memWf, if_pos hword]

/-! ### The B field without ENB, and the next address bit by bit -/

theorem aluTable_of_not_enb {k : AluCtl} (h : k.enb = false) (a b b' : Word) : aluTable k a b = aluTable k a b' := by
  rw [← aluResult_eq_table, ← aluResult_eq_table]
  simp only [aluResult, h, Bool.false_eq_true, if_false]

/-- Settles O44: the B field enters a cycle through operand B alone, which ENB = 0 gates to 0 (41_alu R152). -/
theorem unusedBFieldHasNoEffect : Obligations.UnusedBFieldHasNoEffect := by
  intro m b s t henb hexec
  have hresult : tableResult s { m with b := b } = tableResult s m := aluTable_of_not_enb henb _ _ _
  have hcbus : tableCBus s { m with b := b } = tableCBus s m := congrArg (shifted m.shift) hresult
  have hrange : accessOk s.par { m with b := b } (tableCBus s { m with b := b }) s.regs =
      accessOk s.par m (tableCBus s m) s.regs := by
    rw [hcbus]
    rfl
  cases hok : accessOk s.par m (tableCBus s m) s.regs with
  | true =>
    cases (exec_mi_of_accessOk hok).symm.trans hexec
    refine ⟨_, exec_mi_of_accessOk (hrange.trans hok), ?_, ?_, ?_, rfl, rfl⟩
    · simp only [hcbus]
    · simp only [hcbus]
    · simp only [hresult]; rfl
  | false =>
    cases (exec_mi_of_not_accessOk hok).symm.trans hexec
    refine ⟨_, exec_mi_of_not_accessOk (hrange.trans hok), rfl, rfl, rfl, ?_, rfl⟩
    simp only [hcbus, State.fail_status]

theorem testBit_flagAt (flag : Bool) (bit i : Nat) : (flagAt flag bit).testBit i = (flag && i == bit) :=
  testBit_bitAt flag bit i

theorem testBit_nextUpc (a : Nat) (j : Jump) (p : Params) (n z : Bool) (i : Nat) :
    (nextUpc a j p n z).testBit i =
      (a.testBit i || (j.isJamn && n && i == p.jamnBit) || (j.isJamz && z && i == p.jamzBit)) := by
  simp only [nextUpc, Nat.testBit_or, testBit_flagAt]

/-- ORing a flag into a bit that is set changes nothing. -/
theorem or_flagAt_of_testBit {a bit : Nat} (h : a.testBit bit = true) (flag : Bool) : a ||| flagAt flag bit = a := by
  apply Nat.eq_of_testBit_eq
  intro i
  rw [Nat.testBit_or, testBit_flagAt]
  by_cases hi : i = bit
  · rw [hi, h, Bool.true_or]
  · rw [beq_false_of_ne hi, Bool.and_false, Bool.or_false]

/-- Settles O45: a bit of R200's OR, and both flags at bits that are set. -/
theorem flagsAreOredIntoTheNextAddress : Obligations.FlagsAreOredIntoTheNextAddress := fun a j p n z i =>
  ⟨testBit_nextUpc a j p n z i, fun hjamn hjamz => by
    rw [nextUpc, or_flagAt_of_testBit hjamn, or_flagAt_of_testBit hjamz]⟩

end Sys2Proof.Machine

namespace Sys2Proof.Machine

/-! ### Reset and launch -/

/-- Settles O2: reset takes its launch parameters over as they are. -/
theorem resetSetsUpcStatusAndImages : Obligations.ResetSetsUpcStatusAndImages :=
  ⟨fun _ _ _ => ⟨rfl, rfl, rfl, rfl, rfl, rfl⟩, rfl⟩

/-- An allowed configuration with a memory image of its memory is reset into the invariant (70_reset_and_hazards
R270). -/
theorem inv_resetOf {p : Params} (cs : ControlStore) {image : Memory} (hp : p.wf = true) (hwf : image.wf = true)
    (hwithin : image.within p.memWords = true) : (State.resetOf p cs image).Inv := by
  have hupc : p.resetUpc < 2 ^ p.nextAddrWidth := by
    simp only [Params.wf, Bool.and_eq_true, decide_eq_true_eq] at hp
    exact hp.2
  exact ⟨hp, hupc, hwf, hwithin⟩

/-- Settles O3: the default parameters are allowed, and an empty image fits any memory. -/
theorem resetMeetsTheInvariant : Obligations.ResetMeetsTheInvariant :=
  inv_resetOf [] (by decide) Memory.wf_nil (Memory.within_nil _)

/-- Settles O4: the launch tests exactly what the invariant asks of a reset state, and the registers are no part of the
invariant. -/
theorem launchMeetsTheInvariantOrIsRefused : Obligations.LaunchMeetsTheInvariantOrIsRefused := by
  intro p cs image x
  refine ⟨fun hp hwf hwithin => ?allowed, fun hrefused => ?refused⟩
  case allowed =>
    obtain ⟨hparams, hupc, hmemWf, hmemWithin⟩ := inv_resetOf cs hp hwf hwithin
    refine ⟨{ State.resetOf p cs image with regs := x }, ?_, ⟨hparams, hupc, hmemWf, hmemWithin⟩,
      rfl, rfl, rfl, rfl, rfl, rfl⟩
    simp only [launch, hp, hwf, hwithin, Bool.and_self, if_true]
  case refused =>
    obtain h | h | h := hrefused <;> simp [launch, h]

/-! ### The byte primitives and the lanes of a word -/

/-- Settles O50: a word with bit 31 set is a negative address, whose word index is negative too (20_memory R52, R53). -/
theorem negativeAddressesAreOutOfRange : Obligations.NegativeAddressesAreOutOfRange := by
  intro p m a v hsign
  have hneg : a.toInt < 0 := (flagN_eq_true_iff a).mp hsign
  have hword : wordInRange p a = false := (wordInRange_eq_false_iff p a).mpr fun h => absurd h.1 (by omega)
  have hbyte : byteInRange p a = false := (byteInRange_eq_false_iff p a).mpr (.inl hneg)
  exact ⟨getWord_of_outOfRange m hword, setWord_of_outOfRange m v hword, getByte_of_outOfRange m hbyte,
    if_neg (Bool.eq_false_iff.mp hbyte)⟩

/-- Lanes of different offsets do not overlap (20_memory R58). -/
theorem lane_apart (o : ByteOrder) {j k : Nat} (hj : j < 4) (hk : k < 4) (hne : k ≠ j) :
    lane o k + 8 ≤ lane o j ∨ lane o j + 8 ≤ lane o k := by
  cases o <;> simp only [lane] <;> omega

theorem lane_le (o : ByteOrder) {k : Nat} (hk : k < 4) : lane o k + 8 ≤ 32 := by
  cases o <;> simp only [lane] <;> omega

theorem getLsbD_byteOfWord (o : ByteOrder) (v : Word) (k : Nat) {i : Nat} (hi : i < 8) :
    (byteOfWord o v k).getLsbD i = v.getLsbD (lane o k + i) := by
  rw [byteOfWord, BitVec.getLsbD_setWidth, decide_eq_true hi, Bool.true_and, BitVec.getLsbD_ushiftRight]

/-- The word with one lane replaced by a byte (20_memory R57). -/
def replaceLane (o : ByteOrder) (v : Word) (j : Nat) (b : Byte) : Word :=
  (v &&& ~~~((0x000000ff : Word) <<< lane o j)) ||| (b.setWidth 32 <<< lane o j)

theorem getLsbD_byteMask (n : Nat) : (0x000000ff : Word).getLsbD n = decide (n < 8) := by
  have hmask : (0x000000ff : Word) = (BitVec.allOnes 8).setWidth 32 := by decide
  rw [hmask, BitVec.getLsbD_setWidth, BitVec.getLsbD_allOnes]
  by_cases hn : n < 8
  · simp [hn, (by omega : n < 32)]
  · simp [hn]

/-- A bit of the new word: inside the lane the byte's, outside it the old word's. -/
theorem getLsbD_replaceLane (o : ByteOrder) (v : Word) (j : Nat) (b : Byte) {n : Nat} (hn : n < 32) :
    (replaceLane o v j b).getLsbD n =
      if lane o j ≤ n ∧ n < lane o j + 8 then b.getLsbD (n - lane o j) else v.getLsbD n := by
  have hn' : n - lane o j < 32 := Nat.lt_of_le_of_lt (Nat.sub_le _ _) hn
  simp only [replaceLane, BitVec.getLsbD_or, BitVec.getLsbD_and, BitVec.getLsbD_not, BitVec.getLsbD_shiftLeft,
    getLsbD_byteMask, BitVec.getLsbD_setWidth, hn, hn', decide_true, Bool.true_and]
  by_cases hbelow : n < lane o j
  · rw [if_neg (by omega)]
    simp [hbelow]
  by_cases hinside : n < lane o j + 8
  · rw [if_pos ⟨by omega, hinside⟩]
    simp [hbelow, (by omega : n - lane o j < 8)]
  · rw [if_neg (by omega), BitVec.getLsbD_of_ge b _ (by omega)]
    simp [(by omega : 8 ≤ n - lane o j)]

theorem byteOfWord_replaceLane (o : ByteOrder) (v : Word) (b : Byte) {j k : Nat} (hj : j < 4) (hk : k < 4) :
    byteOfWord o (replaceLane o v j b) k = if k = j then b else byteOfWord o v k := by
  apply BitVec.eq_of_getLsbD_eq
  intro i hi
  have hlane := lane_le o hk
  rw [getLsbD_byteOfWord o _ _ hi, getLsbD_replaceLane o v j b (by omega)]
  by_cases hkj : k = j
  · subst hkj
    rw [if_pos (by omega), if_pos rfl, Nat.add_sub_cancel_left]
  · have hapart := lane_apart o hj hk hkj
    rw [if_neg (by omega), if_neg hkj, getLsbD_byteOfWord o _ _ hi]

/-- Setting the byte of an offset replaces its lane in its word. -/
theorem word_write_byte {m : Memory} (hm : m.wf = true) (o : ByteOrder) (w : Nat) {j : Nat} (hj : j < 4) (b : Byte) :
    (m.write (4 * w + j) b).word o w = replaceLane o (m.word o w) j b := by
  apply word_ext o
  intro k hk
  rw [byteOfWord_word o _ _ _ hk, Memory.read_write hm, byteOfWord_replaceLane o _ _ hj hk, byteOfWord_word o _ _ _ hk]
  by_cases hkj : k = j
  · rw [if_pos (by omega), if_pos hkj]
  · rw [if_neg (by omega), if_neg hkj]

theorem word_write_byte_other {m : Memory} (hm : m.wf = true) (o : ByteOrder) {w w' : Nat} {j : Nat} (hj : j < 4)
    (b : Byte) (hne : w' ≠ w) : (m.write (4 * w + j) b).word o w' = m.word o w' := by
  apply word_ext o
  intro k hk
  rw [byteOfWord_word o _ _ _ hk, byteOfWord_word o _ _ _ hk, Memory.read_write hm, if_neg (by omega)]

/-- Settles O48: in range `setByte` sets the byte of offset `off(a)` in the word `widx(a)`. -/
theorem setByteReplacesOneLane : Obligations.SetByteReplacesOneLane := by
  intro p m a v hm
  have hoff : off a < 4 := Nat.mod_lt _ (by decide)
  refine ⟨fun ha => ⟨m.write (4 * (widx a).toNat + off a) (v.setWidth 8), if_pos ha, Memory.wf_write hm _ _, ?get,
    word_write_byte hm p.byteOrder _ hoff _, fun w hne => word_write_byte_other hm p.byteOrder hoff _ hne⟩,
    fun ha => if_neg (Bool.eq_false_iff.mp ha)⟩
  case get => rw [getByte, if_pos ha, Memory.read_write hm, if_pos rfl]

/-- Settles O49: the byte address `4*w + k` has the word index `w` and the offset `k`, so it reads the lane of the word
just stored. -/
theorem bytesOfAStoredWord : Obligations.BytesOfAStoredWord := by
  intro p m m2 w k v hm hk haddress hset
  refine ⟨?_, by cases p.byteOrder <;> rfl⟩
  have hw : (BitVec.ofNat 32 w).toNat = w := by simp; omega
  have hindex : widx (BitVec.ofNat 32 (4 * w + k)) = w := by
    rw [widx, BitVec.toInt_eq_toNat_of_lt] <;> simp <;> omega
  have hoff : off (BitVec.ofNat 32 (4 * w + k)) = k := by simp [off]; omega
  cases hrange : wordInRange p (BitVec.ofNat 32 w) with
  | false => cases (setWord_of_outOfRange m v hrange).symm.trans hset
  | true =>
    cases (setWord_of_inRange m v hrange).symm.trans hset
    obtain ⟨hnonneg, hinside⟩ := (wordInRange_iff _ _).mp hrange
    have hnat := toInt_toNat_of_nonneg hnonneg
    have hbyte : byteInRange p (BitVec.ofNat 32 (4 * w + k)) = true :=
      (byteInRange_iff _ _).mpr (by rw [hindex]; omega)
    rw [getByte_of_inRange _ hbyte, hindex, hoff, Int.toNat_natCast, hw, Memory.word_storeWord hm, if_pos rfl]
    rfl

/-! ### Loading (70_reset_and_hazards section 1) -/

theorem loadWord_of_lt {s : State} {w : Nat} (v : Word) (hw : w < s.par.memWords) :
    s.loadWord w v = { s with mem := s.mem.storeWord s.par.byteOrder w v } :=
  if_pos hw

/-- Settles O52: loading a word stores it as a cycle's WRITE does; loading an entry puts it before the entries of other
indices. -/
theorem loadingSetsOneWordAndOneEntry : Obligations.LoadingSetsOneWordAndOneEntry := by
  intro s
  refine ⟨fun w v hs hw => ?word, fun w v hw => if_neg (Nat.not_lt.mpr hw),
    fun u x => ⟨rfl, fun hs => ?entryInv, ?entry⟩⟩
  case word =>
    obtain ⟨hparams, hupc, hwf, hwithin⟩ := hs
    rw [loadWord_of_lt v hw]
    exact ⟨⟨hparams, hupc, Memory.wf_storeWord hwf _ _ _, Memory.within_storeWord _ _ hwithin hw⟩, rfl,
      Memory.read_storeWord hwf _ _ _, Memory.word_storeWord hwf _ _ _⟩
  case entryInv =>
    obtain ⟨hparams, hupc, hwf, hwithin⟩ := hs
    exact ⟨hparams, hupc, hwf, hwithin⟩
  case entry => exact ControlStore.entry_load s.par s.cs u x

end Sys2Proof.Machine
